-- ==== Sys2Proof/Word.lean ====
section
/-! DEFINITION. The word type of the RCA decoder/ALU and the number of a general register. -/

namespace Sys2Proof

/-- A 32-bit pattern: a register value, a memory word or an instruction word (R8, R10, R15). Read as a signed integer it is
its two's-complement value `BitVec.toInt`. -/
abbrev Word := BitVec 32

/-- The number of a general register, 0 to 7: any 3-bit value names one (R10, R43). -/
abbrev Reg := Fin 8

end Sys2Proof
end

