-- ==== Sys2Proof/Machine/Codec.lean ====
section
/-! DEFINITION. The two's-complement bit-field codec (R52 to R55) and the notation `wrap32` (R8). -/

namespace Sys2Proof

/-- A value a signed field of `w` bits can hold: -2^(w-1) to 2^(w-1) - 1, for a width of at least one bit (R52, R53). -/
abbrev Representable (v : Int) (w : Nat) : Prop := 1 ≤ w ∧ -(2 ^ (w - 1)) ≤ v ∧ v ≤ 2 ^ (w - 1) - 1

/-- `encode(v, w)`: the `w`-bit pattern of `v mod 2^w` where `v` is representable (R53); refused where it is not (R54). -/
def encodeSigned (v : Int) (w : Nat) : Option (BitVec w) :=
  if Representable v w then some (BitVec.ofNat w (v % 2 ^ w).toNat) else none

/-- `decode(u, w)`, also written `sext_w(u)`: `u - 2^w` where the top bit is set, `u` where it is not (R55, R8). -/
def decodeSigned {w : Nat} (u : BitVec w) : Int :=
  if u.msb then (u.toNat : Int) - 2 ^ w else u.toNat

/-- `wrap32(n)`: the 32-bit pattern whose signed value is congruent to `n` modulo 2^32 (R8). -/
def wrap32 (n : Int) : Word := BitVec.ofInt 32 n

end Sys2Proof
end

