-- ==== Sys2Proof/Syntax.lean ====
section
/-! DEFINITION. The eight instructions (R46), one constructor per row of spec/opcode_table.json. -/

namespace Sys2Proof

/-- An instruction with its operands (R37 to R41, R43). `a`, `b` and `d` are the fields regA, regB and destReg; `off` is the
sign-extended offset. Unused bits are no operand (R47). -/
inductive Instr where
  /-- `add regA regB destReg`, format R, opcode 0 (R74). -/
  | add (a b d : Reg)
  /-- `nand regA regB destReg`, format R, opcode 1 (R75). -/
  | nand (a b d : Reg)
  /-- `lw regA regB offset`, format I, opcode 2 (R78). -/
  | lw (a b : Reg) (off : Int)
  /-- `sw regA regB offset`, format I, opcode 3 (R79). -/
  | sw (a b : Reg) (off : Int)
  /-- `beq regA regB offset`, format I, opcode 4 (R81). -/
  | beq (a b : Reg) (off : Int)
  /-- `jalr regA regB`, format J, opcode 5 (R82). -/
  | jalr (a b : Reg)
  /-- `halt`, format O, opcode 6 (R83). -/
  | halt
  /-- `noop`, format O, opcode 7 (R84). -/
  | noop
  deriving DecidableEq, Repr

end Sys2Proof
end

