-- ==== Sys2Proof/WellFormed.lean ====
section
/-! DEFINITION. Which instruction terms have an encoding: the offset fits its 16-bit two's-complement field (R39, R68). -/

namespace Sys2Proof

/-- The range of the format I offset, -32768 to 32767 (R6, R39). -/
abbrev OffsetInRange (off : Int) : Prop := -32768 ≤ off ∧ off ≤ 32767

/-- A term some 32-bit word spells. Register numbers are in range by their type (R43); only the offset needs a check. -/
def Instr.wellFormed : Instr → Bool
  | .add _ _ _ => true
  | .nand _ _ _ => true
  | .lw _ _ off => decide (OffsetInRange off)
  | .sw _ _ off => decide (OffsetInRange off)
  | .beq _ _ off => decide (OffsetInRange off)
  | .jalr _ _ => true
  | .halt => true
  | .noop => true

end Sys2Proof
end

