-- ==== Sys2Proof/Decode.lean ====
section
/-! DEFINITION. The decoder (R43 to R48) and, after it, the encoder (R58 to R61). -/

namespace Sys2Proof

/-- `w[hi:lo]`, the unsigned integer held in bits hi down to lo (R7). -/
def bits (w : Word) (hi lo : Nat) : Nat := w.toNat / 2 ^ lo % 2 ^ (hi + 1 - lo)

/-- regA = w[21:19] (R43). -/
def fieldA (w : Word) : Reg := Fin.ofNat 8 (bits w 21 19)

/-- regB = w[18:16] (R43). -/
def fieldB (w : Word) : Reg := Fin.ofNat 8 (bits w 18 16)

/-- destReg = w[2:0] (R43). -/
def fieldD (w : Word) : Reg := Fin.ofNat 8 (bits w 2 0)

/-- The 16-bit pattern w[15:0] of the offset field (R39). -/
def offsetField (w : Word) : BitVec 16 := BitVec.ofNat 16 (bits w 15 0)

/-- off = sext_16(w[15:0]) (R43, R50). -/
def fieldOff (w : Word) : Int := decodeSigned (offsetField w)

/-- The opcode value `w >> 22`. The spec's dispatch does not depend on the kind of shift (R44); this is the logical one. -/
def opv (w : Word) : Nat := bits w 31 22

/-- Why the decoder gives no instruction. -/
inductive DecodeReject where
  /-- The opcode value of `w` lies outside 0..7, that is, w[31:25] is not 0 (R44, R48). The cycle runs it as an unknown
  opcode (R85); nothing stops. -/
  | unknownOpcode (w : Word)
  deriving DecidableEq, Repr

/-- The decoder: total on all 2^32 words, one of eight instructions or the unknown opcode (R43 to R48). -/
def decode (w : Word) : Except DecodeReject Instr :=
  match opv w with
  | 0 => .ok (.add (fieldA w) (fieldB w) (fieldD w))
  | 1 => .ok (.nand (fieldA w) (fieldB w) (fieldD w))
  | 2 => .ok (.lw (fieldA w) (fieldB w) (fieldOff w))
  | 3 => .ok (.sw (fieldA w) (fieldB w) (fieldOff w))
  | 4 => .ok (.beq (fieldA w) (fieldB w) (fieldOff w))
  | 5 => .ok (.jalr (fieldA w) (fieldB w))
  | 6 => .ok .halt
  | 7 => .ok .noop
  | _ => .error (.unknownOpcode w)

/-- The instruction the decoder reads from a table word: bits above `nbits` are 0, and one word is the whole instruction
(R37, R49). -/
def decodeTableWord (nbits w : Nat) : Option Instr :=
  (decode (BitVec.ofNat 32 (w % 2 ^ nbits))).toOption

/-- Packing of the opcode and the two register fields every format but O has: (op << 22) | (A << 19) | (B << 16) (R58). -/
def packHead (op : Nat) (a b : Reg) : Word :=
  (BitVec.ofNat 32 op <<< 22) ||| (BitVec.ofNat 32 a.val <<< 19) ||| (BitVec.ofNat 32 b.val <<< 16)

/-- Packing a format R instruction (R58). -/
def packR (op : Nat) (a b d : Reg) : Word := packHead op a b ||| BitVec.ofNat 32 d.val

/-- Packing a format I instruction; refused where the codec refuses the offset (R59, R54). -/
def packI (op : Nat) (a b : Reg) (off : Int) : Option Word :=
  (encodeSigned off 16).map fun p => packHead op a b ||| p.setWidth 32

/-- Packing a format J instruction (R60). -/
def packJ (op : Nat) (a b : Reg) : Word := packHead op a b

/-- Packing a format O instruction (R61). -/
def packO (op : Nat) : Word := BitVec.ofNat 32 op <<< 22

/-- The word of an instruction (R58 to R61); `none` exactly where an offset does not fit its field (R54). -/
def encode : Instr → Option Word
  | .add a b d => some (packR 0 a b d)
  | .nand a b d => some (packR 1 a b d)
  | .lw a b off => packI 2 a b off
  | .sw a b off => packI 3 a b off
  | .beq a b off => packI 4 a b off
  | .jalr a b => some (packJ 5 a b)
  | .halt => some (packO 6)
  | .noop => some (packO 7)

/-- The bits of a word that decide how it executes, once it is known which instruction it spells: the opcode with bits
31:25, and the fields of its format (R38 to R42, R47). -/
def usedBits : Instr → Word
  | .add _ _ _ => 0xFFFF0007#32
  | .nand _ _ _ => 0xFFFF0007#32
  | .lw _ _ _ => 0xFFFFFFFF#32
  | .sw _ _ _ => 0xFFFFFFFF#32
  | .beq _ _ _ => 0xFFFFFFFF#32
  | .jalr _ _ => 0xFFFF0000#32
  | .halt => 0xFFC00000#32
  | .noop => 0xFFC00000#32

end Sys2Proof
end

