-- ==== Sys2Proof/Machine/Flags.lean ====
section
/-! DEFINITION. The ALU's results (R73, R76). The block has no flags, condition codes or predicates (R17): carry and
overflow are discarded, and the one condition is EQ, which beq tests directly. -/

namespace Sys2Proof.Machine

/-- The ALU function ADD: wrap32(a + b) (R73, R74). -/
def aluAdd (a b : Word) : Word := wrap32 (a.toInt + b.toInt)

/-- The ALU function NAND: ~(a & b) (R73, R75). -/
def aluNand (a b : Word) : Word := ~~~(a &&& b)

/-- The ALU function EQ on all 32 bits (R73, R81). -/
def aluEq (a b : Word) : Bool := a == b

end Sys2Proof.Machine
end

