-- ==== Sys2Proof/Config.lean ====
section
/-! DEFINITION. What an implementation fixes: the one open parameter of the spec, MEMCAP (R6, U1), and its bound. -/

namespace Sys2Proof

/-- The largest capacity the spec allows, 2^31 - 2^15 words (R6). -/
def Config.maxMemcap : Nat := 2147450880

/-- MEMCAP less one. The spec leaves MEMCAP open between 1 and 2^31 - 2^15 (R6, D1), so this constant has no body:
nothing can be proved of it beyond the range its type gives. Log entry 1. -/
opaque Config.memcapLessOne : Fin 2147450880

/-- MEMCAP, the memory capacity in words of the machine that `State.reset` describes (R6, D1). Log entry 1. -/
def Config.memcap : Nat := Config.memcapLessOne.val + 1

end Sys2Proof
end

