-- ==== Sys2Proof/Machine/State.lean ====
section
/-! DEFINITION. The machine's state as plain data (10_state.md), its events (R88), the reasons a step can stop, and the
state after reset (R22, R100). -/

namespace Sys2Proof.Machine

/-- The run status (R14). The last three are terminal. -/
inductive RunStatus where
  /-- The block takes steps. -/
  | running
  /-- A halt was executed: normal termination. -/
  | halted
  /-- A fetch found pc >= MEMCAP: abnormal termination. -/
  | pcOutOfBounds
  /-- A fetch found pc < 0: a fault, which refutes every postcondition (R92). -/
  | negativePcFault
  deriving DecidableEq, Repr

/-- What a step reports (R88): the event and its info. It transfers no control (R87). -/
inductive Event where
  /-- lw or sw out of bounds, with the exact effective address (R89). The run goes on. -/
  | memOutOfBounds (ea : Int)
  /-- The fetched word has an opcode value outside 0..7 (R90). The run goes on. -/
  | unknownOpcode (w : Word)
  /-- A fetch at pc >= MEMCAP (R91). The run ends. -/
  | pcOutOfBounds (pc : Word)
  /-- A fetch at pc < 0 (R92). The run ends. -/
  | negativePc (pc : Word)
  /-- A halt, with the incremented pc (R93). The run ends. -/
  | halt (pc : Word)
  deriving DecidableEq, Repr

/-- Memory: the listed (word address, word) pairs. The spec's smallest addressable unit is the 32-bit word and a model holds
a memory word as one 32-bit value, never as bytes (R25, R29). Canonical form: `Memory.wf` in Ops. Log entry 4. -/
abbrev Memory := List (Nat × Word)

/-- Everything the spec gives the machine (R10, R13 to R16, R20), with two fields of the model's own. -/
structure State where
  /-- The general registers x[0] to x[7] (R10). -/
  regs : Vector Word 8
  /-- The program counter, a signed 32-bit word address (R13). -/
  pc : Word
  /-- The run status (R14). -/
  status : RunStatus
  /-- The memory words (R15). -/
  mem : Memory
  /-- MEMCAP, the capacity in words. Configuration that no step changes (R6, R23), held here so that the model takes it as an
  argument; the model's own field. Log entry 1. -/
  memcap : Nat
  /-- The number of words the host placed at load (R16). -/
  numLoaded : Nat
  /-- The event output of the last step, or none (R88; the signal `event` of R21); the model's own field. Log entry 2. -/
  event : Option Event
  deriving DecidableEq, Repr

/-- Why `step` has no next state. The spec gives a block in a terminal status no step (R98). Log entry 3. -/
inductive Fault where
  /-- Raised by `step` on a block whose status is Halted: the run ended normally. Safe: the spec gives no step there. -/
  | halted
  /-- Raised by `step` on a block whose status is PcOutOfBounds. Safe: the spec gives no step there. -/
  | pcOutOfBounds
  /-- Raised by `step` on a block whose status is NegativePcFault. Safe: the spec gives no step there. -/
  | negativePcFault
  deriving DecidableEq, Repr

/-- Why the model gives no meaning. -/
inductive Refusal where
  /-- An arm of `exec` whose instruction has no meaning yet, by its mnemonic. Safe. No arm of this model answers it. -/
  | notModelled (mnemonic : String)
  deriving DecidableEq, Repr

/-- The block after reset and before any image is placed: registers 0, memory 0, pc 0, Running, nothing loaded (R22, R100
steps 1 to 4). `resetAndLoad` in Load places an image. -/
def State.reset : State where
  regs := Vector.replicate 8 0#32
  pc := 0#32
  status := .running
  mem := []
  memcap := Config.memcap
  numLoaded := 0
  event := none

end Sys2Proof.Machine
end

