-- ==== Sys2Proof/Machine/Ops.lean ====
section
/-! DEFINITION. The named operations over memory, registers, events and the run status that every meaning uses. The block
has no trap mechanism (R87): `raise` and `stop` stand where another machine takes an exception, and there is no return. -/

namespace Sys2Proof.Machine

/-- What an unlisted address reads as: 0, the reset contents the spec gives every word (R22, R100). -/
def Memory.unlisted : Word := 0#32

/-- The word at an address (R27, R34). -/
def Memory.read : Memory → Nat → Word
  | [], _ => Memory.unlisted
  | (k, v) :: m, a => if k = a then v else Memory.read m a

/-- The listing of one word: nothing where the word is what an unlisted address reads as. -/
def Memory.cell (a : Nat) (v : Word) : Memory := if v = Memory.unlisted then [] else [(a, v)]

/-- The memory with the word at `a` replaced (R28), in canonical form. -/
def Memory.write : Memory → Nat → Word → Memory
  | [], a, v => Memory.cell a v
  | (k, w) :: m, a, v =>
    if a < k then Memory.cell a v ++ (k, w) :: m
    else if a = k then Memory.cell a v ++ m
    else (k, w) :: Memory.write m a v

/-- The words of a list at consecutive addresses from `a` on (R101). -/
def Memory.ofWords : Nat → List Word → Memory
  | _, [] => []
  | a, w :: ws => Memory.cell a w ++ Memory.ofWords (a + 1) ws

/-- Canonical form from address `lo` on: addresses strictly rising, none below `lo`, no entry equal to what an unlisted
address reads as. -/
def Memory.wfFrom : Nat → Memory → Bool
  | _, [] => true
  | lo, (k, v) :: m => decide (lo ≤ k) && decide (v ≠ Memory.unlisted) && Memory.wfFrom (k + 1) m

/-- Canonical form of a memory, so that equal memories are equal lists. -/
def Memory.wf (m : Memory) : Bool := Memory.wfFrom 0 m

/-- Every listed address exists: it lies below the capacity (R15, R25). -/
def Memory.boundedBy (cap : Nat) (m : Memory) : Bool := m.all fun c => decide (c.1 < cap)

/-- x[r] (R10): no register is special. -/
def State.reg (s : State) (r : Reg) : Word := s.regs.get r

/-- x[r] <- v (R10): no register discards a write. -/
def State.setReg (s : State) (r : Reg) (v : Word) : State := { s with regs := s.regs.set r.val v r.isLt }

/-- pc <- t (R13). -/
def State.setPc (s : State) (t : Word) : State := { s with pc := t }

/-- The word address an exact integer names, where it is in bounds: 0 <= a < MEMCAP (R26). -/
def State.address? (s : State) : Int → Option Nat
  | .ofNat n => if n < s.memcap then some n else none
  | .negSucc _ => none

/-- MemRead(a, 1) (R27); its callers check the bound with `address?` first. -/
def State.memRead (s : State) (a : Nat) : Word := s.mem.read a

/-- MemWrite(a, 1, v) (R28); its caller checks the bound with `address?` first. -/
def State.memWrite (s : State) (a : Nat) (v : Word) : State := { s with mem := s.mem.write a v }

/-- raise E(info): record the event in the step's output; control is not transferred (R8, R88). -/
def State.raise (s : State) (e : Event) : State := { s with event := some e }

/-- stop S: set the run status (R8, R14). -/
def State.stop (s : State) (t : RunStatus) : State := { s with status := t }

/-- The fetched word, where the pc is in bounds (R45). -/
def State.fetch (s : State) : Option Word := (s.address? s.pc.toInt).map s.memRead

/-- The state an instruction rule starts from: the pc incremented (R45), and no event in this step's output yet (R88). -/
def State.advance (s : State) : State := { s with pc := wrap32 (s.pc.toInt + 1), event := none }

end Sys2Proof.Machine
end

