-- ==== Sys2Proof/Machine/Operands.lean ====
section
/-! DEFINITION. The operand forms: base plus offset (R77), the one addressing mode, and the pc-relative branch target
(R81). Register operands are read and written by `State.reg` and `State.setReg`. -/

namespace Sys2Proof.Machine

/-- The ALU function EA: x[A] + off, exact (R73, R77). -/
def effectiveAddress (s : State) (a : Reg) (off : Int) : Int := (s.reg a).toInt + off

/-- The ALU function BT: pc_inc + off, exact (R73, R81). The rule reads the already incremented pc. -/
def branchTarget (s : State) (off : Int) : Int := s.pc.toInt + off

end Sys2Proof.Machine
end

