-- ==== Sys2Proof/Machine/Alu.lean ====
section
/-! DEFINITION. The register-triple instructions add and nand (40_alu.md). -/

namespace Sys2Proof.Machine

/-- `add`: x[D] <- wrap32(x[A] + x[B]), both operands read before the write (R74). -/
def execAdd (a b d : Reg) (s : State) : Host.Outcome State Fault Refusal :=
  .next (s.setReg d (aluAdd (s.reg a) (s.reg b)))

/-- `nand`: x[D] <- ~(x[A] & x[B]), both operands read before the write (R75). -/
def execNand (a b d : Reg) (s : State) : Host.Outcome State Fault Refusal :=
  .next (s.setReg d (aluNand (s.reg a) (s.reg b)))

end Sys2Proof.Machine
end

