-- ==== Sys2Proof/Machine/Control.lean ====
section
/-! DEFINITION. The control transfers beq and jalr (42_control.md). The pc they read is pc_inc (R45); a target is checked
only by the next fetch (R80). -/

namespace Sys2Proof.Machine

/-- `beq`: if x[A] = x[B] then pc <- pc_inc + off (R81). The sum is exact; it fits 32 bits in every state a run reaches
(R13), and is narrowed by `wrap32` to be stored. -/
def execBeq (a b : Reg) (off : Int) (s : State) : Host.Outcome State Fault Refusal :=
  if aluEq (s.reg a) (s.reg b) then .next (s.setPc (wrap32 (branchTarget s off))) else .next s

/-- `jalr`: first x[B] <- pc_inc, then pc <- x[A], read after the link write (R82, C7). -/
def execJalr (a b : Reg) (s : State) : Host.Outcome State Fault Refusal :=
  .next ((s.setReg b s.pc).setPc ((s.setReg b s.pc).reg a))

end Sys2Proof.Machine
end

