-- ==== Sys2Proof/Machine/LoadStore.lean ====
section
/-! DEFINITION. The instructions lw and sw (41_loadstore.md). -/

namespace Sys2Proof.Machine

/-- `lw`: x[B] <- MemRead(ea, 1) in bounds, else the event MemOutOfBounds(ea) and nothing else (R78, R89). -/
def execLw (a b : Reg) (off : Int) (s : State) : Host.Outcome State Fault Refusal :=
  match s.address? (effectiveAddress s a off) with
  | some n => .next (s.setReg b (s.memRead n))
  | none => .next (s.raise (.memOutOfBounds (effectiveAddress s a off)))

/-- `sw`: MemWrite(ea, 1, x[B]) in bounds, else the event MemOutOfBounds(ea) and nothing else (R79, R89). -/
def execSw (a b : Reg) (off : Int) (s : State) : Host.Outcome State Fault Refusal :=
  match s.address? (effectiveAddress s a off) with
  | some n => .next (s.memWrite n (s.reg b))
  | none => .next (s.raise (.memOutOfBounds (effectiveAddress s a off)))

end Sys2Proof.Machine
end

