-- ==== Sys2Proof/Machine/System.lean ====
section
/-! DEFINITION. The instructions halt and noop, and the unknown opcode (43_system.md). -/

namespace Sys2Proof.Machine

/-- `halt`: stop Halted and raise Halt(pc_inc) (R83, R93). -/
def execHalt (s : State) : Host.Outcome State Fault Refusal :=
  .next ((s.stop .halted).raise (.halt s.pc))

/-- `noop`: nothing (R84). -/
def execNoop (s : State) : Host.Outcome State Fault Refusal :=
  .next s

/-- A word whose opcode value lies outside 0..7: the event UnknownOpcode(w), nothing else (R85, R90). It is no row of the
opcode table, so the cycle runs it, not `exec`. -/
def execUnknown (w : Word) (s : State) : Host.Outcome State Fault Refusal :=
  .next (s.raise (.unknownOpcode w))

end Sys2Proof.Machine
end

