-- ==== Sys2Proof/Machine/Dispatch.lean ====
section
/-! DEFINITION. The dispatch table (R46): one arm per instruction. The state handed in already holds pc_inc (R45). -/

namespace Sys2Proof.Machine

/-- The effect of an instruction on the state that `State.advance` leaves (R45, R46). -/
def exec (i : Instr) (s : State) : Host.Outcome State Fault Refusal :=
  match i with
  | .add a b d => Sys2Proof.Machine.execAdd a b d s
  | .nand a b d => Sys2Proof.Machine.execNand a b d s
  | .lw a b off => Sys2Proof.Machine.execLw a b off s
  | .sw a b off => Sys2Proof.Machine.execSw a b off s
  | .beq a b off => Sys2Proof.Machine.execBeq a b off s
  | .jalr a b => Sys2Proof.Machine.execJalr a b s
  | .halt => Sys2Proof.Machine.execHalt s
  | .noop => Sys2Proof.Machine.execNoop s

end Sys2Proof.Machine
end

