-- ==== Sys2Proof/Machine/Cycle.lean ====
section
/-! DEFINITION. The instruction cycle of a Running block (R45), with its checks in the order of R94. -/

namespace Sys2Proof.Machine

/-- The effect of a fetched word: one of the eight instructions or the unknown opcode (R45, R48). -/
def executeWord (w : Word) (s : State) : Host.Outcome State Fault Refusal :=
  match decode w with
  | .ok i => exec i s
  | .error (.unknownOpcode u) => execUnknown u s

/-- The cycle: a negative pc ends the run (R92), then a pc at or past MEMCAP (R91), neither with a fetch or an increment;
otherwise fetch, increment, decode and execute (R45). -/
def cycle (s : State) : Host.Outcome State Fault Refusal :=
  if s.pc.toInt < 0 then .next ((s.stop .negativePcFault).raise (.negativePc s.pc))
  else
    match s.fetch with
    | none => .next ((s.stop .pcOutOfBounds).raise (.pcOutOfBounds s.pc))
    | some w => executeWord w s.advance

/-- The state with a word stored where the next fetch reads it, Running, and the pc kept where it is in bounds and at the
reset entry point 0 where it is not. Log entry 5. -/
def State.placeNext (s : State) (w : Word) : State :=
  match s.address? s.pc.toInt with
  | some n => (s.stop .running).memWrite n w
  | none => ((s.stop .running).setPc 0#32).memWrite 0 w

end Sys2Proof.Machine
end

