-- ==== Sys2Proof/Machine/Step.lean ====
section
/-! DEFINITION. One step: the cycle while Running, and no step in a terminal status (R45, R94, R98). -/

namespace Sys2Proof.Machine

/-- One step of the block. A terminal status has no step (R98): the fault names the status. Log entry 3. -/
def step (s : State) : Host.Outcome State Fault Refusal :=
  match s.status with
  | .running => cycle s
  | .halted => .fault .halted
  | .pcOutOfBounds => .fault .pcOutOfBounds
  | .negativePcFault => .fault .negativePcFault

/-- `s` with the table word `w` (its bits above `nbits` zero) stored where `step` fetches its next instruction. Log entry 5. -/
def State.withFetchWord (s : State) (nbits w : Nat) : State :=
  s.placeNext (BitVec.ofNat 32 (w % 2 ^ nbits))

end Sys2Proof.Machine
end

