-- ==== Sys2Proof/Machine/Load.lean ====
section
/-! DEFINITION. Reset and load, the one event that starts a run (R100 to R103), and the image text the host reads and
writes (R71, R101). -/

namespace Sys2Proof.Machine

/-- The warning a load can give (R102). -/
inductive LoadReport where
  /-- The image holds more words than the memory; the excess was discarded and the run starts normally (R102). -/
  | memoryOverflow
  deriving DecidableEq, Repr

/-- What reset-and-load hands back: the initial state and the warning, if any (R112). -/
structure LoadResult where
  state : State
  report : Option LoadReport
  deriving DecidableEq, Repr

/-- Reset and load of a block with `cap` memory words (R100): the first `cap` words of the image from address 0 on (R101),
the rest discarded with a warning (R102), `numLoaded` the number placed (R103). A capacity outside the bound of R6 is
refused (D1). -/
def resetAndLoad (cap : Nat) (img : List Word) : Option LoadResult :=
  if 1 ≤ cap ∧ cap ≤ Config.maxMemcap then
    some
      { state :=
          { State.reset with memcap := cap, mem := Memory.ofWords 0 (img.take cap), numLoaded := min img.length cap }
        report := if cap < img.length then some .memoryOverflow else none }
  else none

/-- The value of a decimal digit. -/
def digit? (c : Char) : Option Nat :=
  if 48 ≤ c.toNat ∧ c.toNat ≤ 57 then some (c.toNat - 48) else none

/-- The value of a run of decimal digits read after the value `acc`; `none` at any other character. -/
def digitsFrom (acc : Nat) : List Char → Option Nat
  | [] => some acc
  | c :: cs =>
    match digit? c with
    | some d => digitsFrom (acc * 10 + d) cs
    | none => none

/-- A decimal numeral `[0-9]+` (R67). -/
def parseNumeral? : List Char → Option Nat
  | [] => none
  | c :: cs => digitsFrom 0 (c :: cs)

/-- A signed decimal literal `-?[0-9]+` (R68, D14). -/
def parseLiteral? : List Char → Option Int
  | [] => none
  | c :: cs =>
    if c = '-' then (parseNumeral? cs).map fun (n : Nat) => -(n : Int)
    else (parseNumeral? (c :: cs)).map fun (n : Nat) => (n : Int)

/-- The lines of a text: each line feed ends one, and a last line may lack its line feed. Log entry 7. -/
def splitLines : List Char → List (List Char)
  | [] => []
  | c :: cs =>
    if c = '\n' then [] :: splitLines cs
    else
      match splitLines cs with
      | [] => [[c]]
      | l :: ls => (c :: l) :: ls

/-- The word of one image line: a signed decimal literal in the 32-bit range (R101, D22). Log entry 8. -/
def imageLine? (line : List Char) : Option Word := (parseLiteral? line).bind fun v => encodeSigned v 32

/-- The image a text holds: the words of the lines that parse, in order; a line that does not parse takes no address
(R101, D22). -/
def readImage (text : List Char) : List Word := (splitLines text).filterMap imageLine?

/-- The lines the host reports as malformed and skips (R101). -/
def skippedLines (text : List Char) : List (List Char) := (splitLines text).filter fun l => (imageLine? l).isNone

/-- The decimal digits of `n` in front of `acc`, at most `fuel` of them. -/
def decimalOnto : Nat → Nat → List Char → List Char
  | 0, _, acc => acc
  | fuel + 1, n, acc =>
    if n < 10 then Char.ofNat (48 + n) :: acc
    else decimalOnto fuel (n / 10) (Char.ofNat (48 + n % 10) :: acc)

/-- A word as the decimal text of its signed value (R71, D22); a magnitude of at most 2^31 has at most ten digits. -/
def renderWord (w : Word) : List Char :=
  if w.toInt < 0 then '-' :: decimalOnto 10 w.toInt.natAbs [] else decimalOnto 10 w.toInt.natAbs []

/-- The persisted image: one decimal integer per line (R71). DESIGN CHOICE: every line ends in a line feed, the last one too;
the spec leaves the line end, and whether the last line has one, open. Log entry 14. -/
def renderImage : List Word → List Char
  | [] => []
  | w :: ws => renderWord w ++ '\n' :: renderImage ws

end Sys2Proof.Machine
end

