-- ==== Sys2Proof/Machine/Assembler.lean ====
section
/-! DEFINITION. The two-pass assembler, specified so far as it fixes which word a line of text spells (R3, R63 to R72). It is
the toolchain, not the block. -/

namespace Sys2Proof.Machine

/-- A token: a maximal run of characters that are not whitespace (R63). -/
abbrev Token := List Char

/-- Labels with the addresses pass 1 binds them to (R64). -/
abbrev Symbols := List (Token × Nat)

/-- The assembly errors; each is fatal and the first aborts the assembly (R70). -/
inductive AsmError where
  /-- A label defined a second time (R65). -/
  | duplicateLabel
  /-- After the label, neither a mnemonic nor `.fill` (R66, D16). -/
  | invalidOpcode
  /-- An operand that is neither a label nor a literal, or a `.fill` literal outside 32 bits (R68, R69). -/
  | undefinedSymbolOrBadLiteral
  /-- A resolved offset outside -32768..32767 (R68). -/
  | offsetOutOfRange
  /-- A register operand that is no numeral in 0..7 (R67). -/
  | badRegisterOperand
  /-- A wrong number of operands (R67, D15). -/
  | operandCount
  deriving DecidableEq, Repr

/-- The eight mnemonics (R66). -/
inductive Mnemonic where
  | add | nand | lw | sw | beq | jalr | halt | noop
  deriving DecidableEq, Repr

/-- What may stand in the opcode place of a line: a mnemonic or the directive `.fill`, which is no opcode (R66, R72). -/
inductive Keyword where
  | op (m : Mnemonic)
  | fill
  deriving DecidableEq, Repr

/-- Exact, case-sensitive recognition of a mnemonic or `.fill` (R66). -/
def keyword? (t : Token) : Option Keyword :=
  if t = ['a', 'd', 'd'] then some (.op .add)
  else if t = ['n', 'a', 'n', 'd'] then some (.op .nand)
  else if t = ['l', 'w'] then some (.op .lw)
  else if t = ['s', 'w'] then some (.op .sw)
  else if t = ['b', 'e', 'q'] then some (.op .beq)
  else if t = ['j', 'a', 'l', 'r'] then some (.op .jalr)
  else if t = ['h', 'a', 'l', 't'] then some (.op .halt)
  else if t = ['n', 'o', 'o', 'p'] then some (.op .noop)
  else if t = ['.', 'f', 'i', 'l', 'l'] then some .fill
  else none

/-- The tokens of a line (R63). Log entry 7 says which characters are whitespace. -/
def tokens : List Char → List Token
  | [] => []
  | c :: cs =>
    if c.isWhitespace then tokens cs
    else
      match cs with
      | [] => [[c]]
      | e :: _ =>
        if e.isWhitespace then [c] :: tokens cs
        else
          match tokens cs with
          | [] => [[c]]
          | t :: ts => (c :: t) :: ts

/-- The non-blank lines of a program, as tokens; a line without tokens takes no address (R63, D15). -/
def programLines (text : List Char) : List (List Token) :=
  ((splitLines text).map tokens).filter fun l => !l.isEmpty

/-- The label a line defines: its first token, where that is neither a mnemonic nor `.fill` (R64, R65). -/
def leadLabel? : List Token → Option Token
  | [] => none
  | t :: _ => if (keyword? t).isSome then none else some t

/-- Pass 1 (R64): bind each line's label to the line's address, refusing a second definition (R65). -/
def pass1 : Nat → Symbols → List (List Token) → Except AsmError Symbols
  | _, sym, [] => .ok sym
  | p, sym, l :: ls =>
    match leadLabel? l with
    | none => pass1 (p + 1) sym ls
    | some t => if (sym.lookup t).isSome then .error .duplicateLabel else pass1 (p + 1) (sym ++ [(t, p)]) ls

/-- A register operand: a decimal numeral with value 0..7 (R67, D13). -/
def registerOperand (t : Token) : Except AsmError Reg :=
  match parseNumeral? t with
  | some n => if h : n < 8 then .ok ⟨n, h⟩ else .error .badRegisterOperand
  | none => .error .badRegisterOperand

/-- The third step of R68: a resolved offset must lie in -32768..32767. -/
def checkedOffset (v : Int) : Except AsmError Int :=
  if OffsetInRange v then .ok v else .error .offsetOutOfRange

/-- The offset operand of the line at address `p` (R68): a label's address, for beq (`relative`) less `p + 1`, or else a
signed decimal literal. -/
def resolveOffset (sym : Symbols) (p : Nat) (relative : Bool) (t : Token) : Except AsmError Int :=
  match sym.lookup t with
  | some a => checkedOffset (if relative then (a : Int) - (p + 1) else a)
  | none =>
    match parseLiteral? t with
    | some v => checkedOffset v
    | none => .error .undefinedSymbolOrBadLiteral

/-- The word of a `.fill` operand (R62, R69): a label's address or a signed literal, as a 32-bit pattern. The error of a
label's address above 2^31 - 1 is the model's choice (log entry 6). -/
def resolveFill (sym : Symbols) (t : Token) : Except AsmError Word :=
  match ((sym.lookup t).map fun (a : Nat) => (a : Int)) <|> parseLiteral? t with
  | some v =>
    match encodeSigned v 32 with
    | some w => .ok w
    | none => .error .undefinedSymbolOrBadLiteral
  | none => .error .undefinedSymbolOrBadLiteral

/-- The word of an instruction whose operands are resolved (R58 to R61). -/
def packInstr (i : Instr) : Except AsmError Word :=
  match encode i with
  | some w => .ok w
  | none => .error .offsetOutOfRange

/-- The operands of add and nand (R63). -/
def operandsR (mk : Reg → Reg → Reg → Instr) : List Token → Except AsmError Word
  | [ta, tb, td] => do
    let a ← registerOperand ta
    let b ← registerOperand tb
    let d ← registerOperand td
    packInstr (mk a b d)
  | _ => .error .operandCount

/-- The operands of lw, sw and beq (R63). -/
def operandsI (mk : Reg → Reg → Int → Instr) (sym : Symbols) (p : Nat) (relative : Bool) : List Token → Except AsmError Word
  | [ta, tb, tOff] => do
    let a ← registerOperand ta
    let b ← registerOperand tb
    let off ← resolveOffset sym p relative tOff
    packInstr (mk a b off)
  | _ => .error .operandCount

/-- The operands of jalr (R63). -/
def operandsJ (mk : Reg → Reg → Instr) : List Token → Except AsmError Word
  | [ta, tb] => do
    let a ← registerOperand ta
    let b ← registerOperand tb
    packInstr (mk a b)
  | _ => .error .operandCount

/-- The operands of halt and noop: none (R63). -/
def operandsO (i : Instr) : List Token → Except AsmError Word
  | [] => packInstr i
  | _ => .error .operandCount

/-- The operand of `.fill` (R63). -/
def operandsFill (sym : Symbols) : List Token → Except AsmError Word
  | [t] => resolveFill sym t
  | _ => .error .operandCount

/-- The word a keyword and its operands spell on the line at address `p` (R63). Log entry 6 fixes the order of checks. -/
def keywordWord (sym : Symbols) (p : Nat) (k : Keyword) (ops : List Token) : Except AsmError Word :=
  match k with
  | .op .add => operandsR .add ops
  | .op .nand => operandsR .nand ops
  | .op .lw => operandsI .lw sym p false ops
  | .op .sw => operandsI .sw sym p false ops
  | .op .beq => operandsI .beq sym p true ops
  | .op .jalr => operandsJ .jalr ops
  | .op .halt => operandsO .halt ops
  | .op .noop => operandsO .noop ops
  | .fill => operandsFill sym ops

/-- A line without its leading label (R66). -/
def withoutLabel (l : List Token) : List Token := if (leadLabel? l).isSome then l.tail else l

/-- The word of the line at address `p` in pass 2 (R66). -/
def assembleLine (sym : Symbols) (p : Nat) (l : List Token) : Except AsmError Word :=
  match withoutLabel l with
  | [] => .error .invalidOpcode
  | k :: ops =>
    match keyword? k with
    | some kw => keywordWord sym p kw ops
    | none => .error .invalidOpcode

/-- Pass 2: one word per non-blank line, in source order (R71). -/
def pass2 (sym : Symbols) : Nat → List (List Token) → Except AsmError (List Word)
  | _, [] => .ok []
  | p, l :: ls => do
    let w ← assembleLine sym p l
    let ws ← pass2 sym (p + 1) ls
    .ok (w :: ws)

/-- Assembly of a program text: pass 1 completes before pass 2, and the first error aborts (R64, R65, R70). -/
def assemble (text : List Char) : Except AsmError (List Word) := do
  let sym ← pass1 0 [] (programLines text)
  pass2 sym 0 (programLines text)

/-- The assembler's persisted output (R71). -/
def assembleToText (text : List Char) : Except AsmError (List Char) := (assemble text).map renderImage

end Sys2Proof.Machine
end

