-- ==== Sys2Proof/Machine/Datapath.lean ====
section
/-! DEFINITION. The single-cycle datapath: the block's signals (R21), its register-file ports (R12) and the commit at the end
of the step. It is the spec's second description of a step, written from the signal table and not from the meanings. -/

namespace Sys2Proof.Machine

/-- The signals of R21 that a fetched word drives. A write port is one value: absent when its enable is off (R12). -/
structure Signals where
  /-- `instr`, the fetched word. -/
  instr : Word
  /-- `opv`, 10 bits: instr >> 22 (R44). -/
  opv : BitVec 10
  /-- `op_valid`: instr[31:25] = 0 (R44). -/
  opValid : Bool
  /-- `fA`, `fB`, `fD` (R43). -/
  fA : Reg
  fB : Reg
  fD : Reg
  /-- `off`, 32 bits: the sign-extended offset field (R43). -/
  off : Word
  /-- `ra_data`, `rb_data`: the two read ports, from before the step (R12). -/
  raData : Word
  rbData : Word
  /-- `alu_out`, for the words that use the 32-bit ALU result: add and nand (R73). -/
  aluOut : Option Word
  /-- `rf_we`, `rf_wa`, `rf_wd`: the register write port (R12). -/
  rfWrite : Option (Reg × Word)
  /-- `dm_addr`, 33 bits signed: the exact effective address (R77). -/
  dmAddr : BitVec 33
  /-- `dm_inb`: the effective address is in bounds (R26). -/
  dmInb : Bool
  /-- `dm_rdata`, for lw in bounds (R78). -/
  dmRdata : Option Word
  /-- `dm_we`, `dm_wdata`, for sw in bounds (R79). -/
  dmWdata : Option Word
  /-- `pc_inc` (R45). -/
  pcInc : Word
  /-- `pc_next` (R24). -/
  pcNext : Word
  /-- The next `status` (R14). -/
  statusNext : RunStatus
  /-- `event`: this step's event, or none (R88). -/
  event : Option Event
  deriving DecidableEq, Repr

/-- `fetch_ok`: 0 <= pc < MEMCAP (R45). -/
def fetchOk (s : State) : Bool := decide (0 ≤ s.pc.toInt) && decide (s.pc.toInt < s.memcap)

/-- `opv`: the top 10 bits of the word, instr >> 22 (R44). -/
def sigOpv (w : Word) : BitVec 10 := w.extractLsb' 22 10

/-- `op_valid`: instr[31:25] = 0 (R44). -/
def sigOpValid (w : Word) : Bool := w.extractLsb' 25 7 == 0#7

/-- The dispatch line of opcode `k`: the word is valid and its opcode value is `k` (R45, R46). -/
def sigIsOp (w : Word) (k : Nat) : Bool := sigOpValid w && sigOpv w == BitVec.ofNat 10 k

/-- `fA` (R43). -/
def sigA (w : Word) : Reg := (w.extractLsb' 19 3).toFin

/-- `fB` (R43). -/
def sigB (w : Word) : Reg := (w.extractLsb' 16 3).toFin

/-- `fD` (R43). -/
def sigD (w : Word) : Reg := (w.extractLsb' 0 3).toFin

/-- `off`: the offset field sign-extended to 32 bits (R43). -/
def sigOff (w : Word) : Word := (w.extractLsb' 0 16).signExtend 32

/-- `pc_inc` (R45). -/
def sigPcInc (s : State) : Word := s.pc + 1#32

/-- `alu_out`, for add and nand (R73). -/
def sigAluOut (s : State) (w : Word) : Option Word :=
  if sigIsOp w 0 then some (aluAdd (s.reg (sigA w)) (s.reg (sigB w)))
  else if sigIsOp w 1 then some (aluNand (s.reg (sigA w)) (s.reg (sigB w)))
  else none

/-- `dm_addr`: the 33-bit sum of the base port and the offset, both sign-extended (R77). -/
def sigDmAddr (s : State) (w : Word) : BitVec 33 := (s.reg (sigA w)).signExtend 33 + (sigOff w).signExtend 33

/-- `dm_inb` (R26). -/
def sigDmInb (s : State) (w : Word) : Bool :=
  decide (0 ≤ (sigDmAddr s w).toInt) && decide ((sigDmAddr s w).toInt < s.memcap)

/-- `dm_rdata`, for lw in bounds (R78). -/
def sigDmRdata (s : State) (w : Word) : Option Word :=
  if sigIsOp w 2 && sigDmInb s w then some (s.memRead (sigDmAddr s w).toNat) else none

/-- `dm_we`, `dm_wdata`: the store of sw in bounds (R79). -/
def sigDmWdata (s : State) (w : Word) : Option Word :=
  if sigIsOp w 3 && sigDmInb s w then some (s.reg (sigB w)) else none

/-- `rf_we`, `rf_wa`, `rf_wd`: the ALU result to fD, the loaded word or the link to fB (R11, R12). -/
def sigRfWrite (s : State) (w : Word) : Option (Reg × Word) :=
  match sigAluOut s w, sigDmRdata s w with
  | some v, _ => some (sigD w, v)
  | none, some v => some (sigB w, v)
  | none, none => if sigIsOp w 5 then some (sigB w, sigPcInc s) else none

/-- `pc_next` (R24): the branch target of a taken beq, the target of jalr with the link forwarded where A = B (R82, C7), or
pc_inc. -/
def sigPcNext (s : State) (w : Word) : Word :=
  if sigIsOp w 4 && aluEq (s.reg (sigA w)) (s.reg (sigB w)) then sigPcInc s + sigOff w
  else if sigIsOp w 5 then (if sigA w = sigB w then sigPcInc s else s.reg (sigA w))
  else sigPcInc s

/-- `event` of a step whose fetch succeeded (R88, R94). -/
def sigEvent (s : State) (w : Word) : Option Event :=
  if !sigOpValid w then some (.unknownOpcode w)
  else if (sigIsOp w 2 || sigIsOp w 3) && !sigDmInb s w then some (.memOutOfBounds (sigDmAddr s w).toInt)
  else if sigIsOp w 6 then some (.halt (sigPcInc s))
  else none

/-- The signals a fetched word drives in a block at state `s` (R21). -/
def signals (s : State) (w : Word) : Signals where
  instr := w
  opv := sigOpv w
  opValid := sigOpValid w
  fA := sigA w
  fB := sigB w
  fD := sigD w
  off := sigOff w
  raData := s.reg (sigA w)
  rbData := s.reg (sigB w)
  aluOut := sigAluOut s w
  rfWrite := sigRfWrite s w
  dmAddr := sigDmAddr s w
  dmInb := sigDmInb s w
  dmRdata := sigDmRdata s w
  dmWdata := sigDmWdata s w
  pcInc := sigPcInc s
  pcNext := sigPcNext s w
  statusNext := if sigIsOp w 6 then .halted else .running
  event := sigEvent s w

/-- The register file after the write port's enable (R12). -/
def commitRegs (s : State) : Option (Reg × Word) → Vector Word 8
  | some (r, v) => (s.setReg r v).regs
  | none => s.regs

/-- The memory after the store port's enable (R12). -/
def commitMem (s : State) (a : Nat) : Option Word → Memory
  | some v => (s.memWrite a v).mem
  | none => s.mem

/-- The writes the signals enable, all committed at the end of the step (R12). -/
def commit (s : State) (g : Signals) : State :=
  { s with
    regs := commitRegs s g.rfWrite, mem := commitMem s g.dmAddr.toNat g.dmWdata, pc := g.pcNext
    status := g.statusNext, event := g.event }

/-- One clock of a Running block: the failed-fetch ends (R91, R92) where `fetch_ok` is off, else the commit of the signals. -/
def clock (s : State) : State :=
  if fetchOk s then commit s (signals s (s.memRead s.pc.toNat))
  else if s.pc.msb then { s with status := .negativePcFault, event := some (.negativePc s.pc) }
  else { s with status := .pcOutOfBounds, event := some (.pcOutOfBounds s.pc) }

end Sys2Proof.Machine
end

