-- ==== Sys2Proof/Machine/Observe.lean ====
section
/-! DEFINITION. What is observed of a run: snapshots, events, and the end (R88, R96, R106). -/

namespace Sys2Proof.Machine

/-- A state snapshot, its fields in the order of R96. -/
structure Snapshot where
  pc : Word
  numLoaded : Nat
  words : List (Nat × Word)
  regs : List (Nat × Word)
  deriving DecidableEq, Repr

/-- The snapshot of a state: pc, numLoaded, the words at 0 to numLoaded-1 and the eight registers, with their indices (R96). -/
def State.snapshot (s : State) : Snapshot where
  pc := s.pc
  numLoaded := s.numLoaded
  words := (List.range s.numLoaded).map fun i => (i, s.memRead i)
  regs := (List.finRange 8).map fun r => (r.val, s.reg r)

/-- What one step contributes to the trace: its event, if any, and the snapshot after it (R88, R96). -/
structure Observation where
  event : Option Event
  snapshot : Snapshot
  deriving DecidableEq, Repr

/-- The observations of at most `fuel` steps; a state with no step contributes none (R96, R98). -/
def observe : Nat → State → List Observation
  | 0, _ => []
  | fuel + 1, s =>
    match step s with
    | .next t => ⟨t.event, t.snapshot⟩ :: observe fuel t
    | .fault _ => []
    | .refused _ => []

/-- The snapshots of a run: one before the first step, one after each (R96). -/
def snapshots (fuel : Nat) (s : State) : List Snapshot := s.snapshot :: (observe fuel s).map Observation.snapshot

/-- The event outputs of a run, step by step, as the traces of 95_test_vectors.md list them (R88). -/
def events (fuel : Nat) (s : State) : List (Option Event) := (observe fuel s).map Observation.event

/-- The final state of a run that ends within `fuel` steps (R106). Running out of fuel is not an end (R107): `none`. -/
def finalState? : Nat → State → Option State
  | 0, s => if s.status = .running then none else some s
  | fuel + 1, s =>
    if s.status = .running then
      match step s with
      | .next t => finalState? fuel t
      | .fault _ => none
      | .refused _ => none
    else some s

end Sys2Proof.Machine
end

