-- ==== Sys2Proof/Safety.lean ====
section
/-! DEFINITION. The invariant of the machine, and which ends of a run are good (R92, R106). -/

namespace Sys2Proof.Machine

/-- The capacity lies within the bound of R6. -/
abbrev State.CapOk (s : State) : Prop := 1 ≤ s.memcap ∧ s.memcap ≤ Config.maxMemcap

/-- Status, pc and event agree (R88, R91 to R93): a terminal status comes with its own event and a pc its rule allows, and
the status Running with no terminal event. -/
def State.endOk (s : State) : Bool :=
  match s.status, s.event with
  | .running, none => true
  | .running, some (.memOutOfBounds _) => true
  | .running, some (.unknownOpcode _) => true
  | .halted, some (.halt p) => p == s.pc && decide (1 ≤ s.pc.toInt) && decide (s.pc.toInt ≤ s.memcap)
  | .pcOutOfBounds, some (.pcOutOfBounds p) => p == s.pc && decide ((s.memcap : Int) ≤ s.pc.toInt)
  | .negativePcFault, some (.negativePc p) => p == s.pc && decide (s.pc.toInt < 0)
  | _, _ => false

/-- The invariant: the capacity within its bound, memory canonical with every listed address below the capacity (R15, R25),
no more words loaded than fit (R16, R103), and status, pc and event in agreement. -/
abbrev State.Inv (s : State) : Prop :=
  s.CapOk ∧ s.mem.wf = true ∧ s.mem.boundedBy s.memcap = true ∧ s.numLoaded ≤ s.memcap ∧ s.endOk = true

/-- The end a claim about a program may count as normal (R106). -/
abbrev State.EndedNormally (s : State) : Prop := s.status = .halted

/-- A state no rule calls a fault: NegativePcFault refutes every postcondition (R92, R106). -/
abbrev State.Safe (s : State) : Prop := s.status ≠ .negativePcFault

end Sys2Proof.Machine
end

