-- ==== Sys2Proof/Certificates/Slice0/Obligations.lean ====
section
/-! DEFINITION. The statements for the provers, from the numbered rules of spec/. -/

namespace Sys2Proof.Claims

open Sys2Proof.Machine

/-- Every register reads as before. -/
abbrev KeepsRegs (s t : State) : Prop := ∀ r, t.reg r = s.reg r

/-- Every register but `d` reads as before. -/
abbrev KeepsRegsBut (d : Reg) (s t : State) : Prop := ∀ r, r ≠ d → t.reg r = s.reg r

/-- Every memory word reads as before. -/
abbrev KeepsMem (s t : State) : Prop := ∀ n, t.memRead n = s.memRead n

/-- Every memory word but the one at `a` reads as before. -/
abbrev KeepsMemBut (a : Nat) (s t : State) : Prop := ∀ n, n ≠ a → t.memRead n = s.memRead n

/-- The capacity and the loaded-word count are as before. -/
abbrev KeepsConfig (s t : State) : Prop := t.memcap = s.memcap ∧ t.numLoaded = s.numLoaded

/-- 0 <= a < MEMCAP on the exact integer (R26). -/
abbrev InBounds (s : State) (a : Int) : Prop := 0 ≤ a ∧ a < s.memcap

/-- The word a fetch at an in-bounds pc reads (R45). -/
abbrev fetched (s : State) : Word := s.memRead s.pc.toInt.toNat

/-- The register fields of a word, by their bit positions (R43). -/
abbrev regA (w : Word) : Reg := (w.extractLsb' 19 3).toFin
abbrev regB (w : Word) : Reg := (w.extractLsb' 16 3).toFin
abbrev regD (w : Word) : Reg := (w.extractLsb' 0 3).toFin

/-- The sign-extended offset field of a word (R43). -/
abbrev offset (w : Word) : Int := (w.extractLsb' 0 16).toInt

/-- The column "registers read" of R11. -/
def registersRead (w : Word) : List Reg :=
  match decode w with
  | .ok (.add a b _) => [a, b]
  | .ok (.nand a b _) => [a, b]
  | .ok (.lw a _ _) => [a]
  | .ok (.sw a b _) => [a, b]
  | .ok (.beq a b _) => [a, b]
  | .ok (.jalr a _) => [a]
  | .ok .halt => []
  | .ok .noop => []
  | .error _ => []

/-- The column "register written" of R11 for a word executed in state `s`. -/
def registerWritten (w : Word) (s : State) : Option Reg :=
  match decode w with
  | .ok (.add _ _ d) => some d
  | .ok (.nand _ _ d) => some d
  | .ok (.lw a b off) => if InBounds s (effectiveAddress s a off) then some b else none
  | .ok (.sw _ _ _) => none
  | .ok (.beq _ _ _) => none
  | .ok (.jalr _ b) => some b
  | .ok .halt => none
  | .ok .noop => none
  | .error _ => none

/-- The column "pc after the step" of R24 for a fetched word, in terms of the state before the step. -/
def pcAfter (s : State) (w : Word) : Int :=
  match decode w with
  | .ok (.beq a b off) => if s.reg a = s.reg b then s.pc.toInt + 1 + off else s.pc.toInt + 1
  | .ok (.jalr a b) => if a = b then s.pc.toInt + 1 else (s.reg a).toInt
  | .ok (.add _ _ _) => s.pc.toInt + 1
  | .ok (.nand _ _ _) => s.pc.toInt + 1
  | .ok (.lw _ _ _) => s.pc.toInt + 1
  | .ok (.sw _ _ _) => s.pc.toInt + 1
  | .ok .halt => s.pc.toInt + 1
  | .ok .noop => s.pc.toInt + 1
  | .error _ => s.pc.toInt + 1

/-- An outcome with its next state mapped. -/
def mapNext (f : State → State) : Host.Outcome State Fault Refusal → Host.Outcome State Fault Refusal
  | .next t => .next (f t)
  | .fault r => .fault r
  | .refused r => .refused r

/-- `f` is reached from `s` by exactly `n` steps. -/
def Reaches : Nat → State → State → Prop
  | 0, s, f => f = s
  | n + 1, s, f => ∃ t, step s = .next t ∧ Reaches n t f

/-- The mnemonic of an instruction, as a source line spells it (R46, R66). -/
def mnemonicOf : Instr → Token
  | .add _ _ _ => "add".toList
  | .nand _ _ _ => "nand".toList
  | .lw _ _ _ => "lw".toList
  | .sw _ _ _ => "sw".toList
  | .beq _ _ _ => "beq".toList
  | .jalr _ _ => "jalr".toList
  | .halt => "halt".toList
  | .noop => "noop".toList

/-- The directive `.fill` (R66). -/
def fillWord : Token := ".fill".toList

/-- The nine words that are no labels (R65, R66). -/
def keywordTokens : List Token :=
  ["add".toList, "nand".toList, "lw".toList, "sw".toList, "beq".toList, "jalr".toList, "halt".toList, "noop".toList, fillWord]

/-- The tokens `l` are the line `[label] k operands` (R63). -/
def LineOf (k : Token) (operands l : List Token) : Prop :=
  l = k :: operands ∨ ∃ label, label ∉ keywordTokens ∧ l = label :: k :: operands

/-- A register operand that names register `r`: a decimal numeral of that value (R67). -/
abbrev SpellsReg (t : Token) (r : Reg) : Prop := parseNumeral? t = some r.val

/-- A register operand that names no register (R67). -/
abbrev SpellsNoReg (t : Token) : Prop := ∀ r, ¬ SpellsReg t r

/-- An offset operand that resolves to `off` on the line at address `p` (R68): a label's address, for beq (`relative`) its
distance from the next line, or else a literal; in the offset's range. -/
def SpellsOffset (sym : Symbols) (p : Nat) (relative : Bool) (t : Token) (off : Int) : Prop :=
  ((∃ a, sym.lookup t = some a ∧ off = if relative then (a : Int) - (p + 1) else a) ∨
    (sym.lookup t = none ∧ parseLiteral? t = some off)) ∧
  -32768 ≤ off ∧ off ≤ 32767

/-- A `.fill` operand of value `v` (R69): a label's address, or else a literal. -/
def SpellsValue (sym : Symbols) (t : Token) (v : Int) : Prop :=
  (∃ a, sym.lookup t = some a ∧ v = a) ∨ (sym.lookup t = none ∧ parseLiteral? t = some v)

/-- The operand tokens of a line at address `p` that spell the operands of an instruction, in the order of its form (R63). -/
def OperandsSpell (sym : Symbols) (p : Nat) (operands : List Token) : Instr → Prop
  | .add a b d => ∃ ta tb td, operands = [ta, tb, td] ∧ SpellsReg ta a ∧ SpellsReg tb b ∧ SpellsReg td d
  | .nand a b d => ∃ ta tb td, operands = [ta, tb, td] ∧ SpellsReg ta a ∧ SpellsReg tb b ∧ SpellsReg td d
  | .lw a b off => ∃ ta tb tv, operands = [ta, tb, tv] ∧ SpellsReg ta a ∧ SpellsReg tb b ∧ SpellsOffset sym p false tv off
  | .sw a b off => ∃ ta tb tv, operands = [ta, tb, tv] ∧ SpellsReg ta a ∧ SpellsReg tb b ∧ SpellsOffset sym p false tv off
  | .beq a b off => ∃ ta tb tv, operands = [ta, tb, tv] ∧ SpellsReg ta a ∧ SpellsReg tb b ∧ SpellsOffset sym p true tv off
  | .jalr a b => ∃ ta tb, operands = [ta, tb] ∧ SpellsReg ta a ∧ SpellsReg tb b
  | .halt => operands = []
  | .noop => operands = []

/-- The operand count of each keyword (R63). -/
def operandCountOf (k : Token) : Nat :=
  if k = "halt".toList ∨ k = "noop".toList then 0
  else if k = fillWord then 1
  else if k = "jalr".toList then 2
  else 3

end Sys2Proof.Claims

section

open Sys2Proof Sys2Proof.Machine Sys2Proof.Claims

/-! Decoder, encoder and codec. -/

/-- Words written out from the formats of R38 to R41 decode to the instructions they stand for. -/
def Obligations.SpecWordsDecode : Prop :=
  decode 0b0000000_000_001_010_0000000000000_011#32 = .ok (.add 1 2 3) ∧
  decode 0b0000000_001_011_011_0000000000000_010#32 = .ok (.nand 3 3 2) ∧
  decode 0b0000000_010_000_010_1111111111111111#32 = .ok (.lw 0 2 (-1)) ∧
  decode 0b0000000_011_111_111_1000000000000000#32 = .ok (.sw 7 7 (-32768)) ∧
  decode 0b0000000_100_000_000_1111111111111101#32 = .ok (.beq 0 0 (-3)) ∧
  decode 0b0000000_101_001_111_0000000000000000#32 = .ok (.jalr 1 7) ∧
  decode 0b0000000_110_0000001111111111111111#32 = .ok .halt ∧
  decode 0b0000000_111_0000001010101111001101#32 = .ok .noop ∧
  decode 0b0000001_000_000_000_0000000000000_000#32 = .error (.unknownOpcode 0x02000000#32)

/-- Decoding the encoding of a well-formed instruction gives it back, whatever its operands (R38 to R41, R58 to R61). -/
def Obligations.DecodeEncodeAgree : Prop :=
  ∀ i : Instr, i.wellFormed = true → ∃ w, encode i = some w ∧ decode w = .ok i

/-- Encoding the instruction a word decodes to gives that word with its unused bits 0 (R47, R58 to R61). -/
def Obligations.EncodeOfDecodedClearsUnusedBits : Prop :=
  ∀ (w : Word) (i : Instr), decode w = .ok i → encode i = some (w &&& usedBits i)

/-- R47: two words that agree on every bit but the unused ones decode alike and execute alike. -/
def Obligations.UnusedBitsDoNotMatter : Prop :=
  ∀ (w v : Word) (i : Instr), decode w = .ok i → w &&& usedBits i = v &&& usedBits i →
    decode v = .ok i ∧ ∀ s : State, executeWord v s = executeWord w s

/-- R44: the opcode value, by a logical or by an arithmetic shift, is in 0..7 exactly when bits 31:25 are 0, and then it is
bits 24:22. -/
def Obligations.OpcodeValueIsInRangeExactlyWhenHighBitsAreZero : Prop :=
  ∀ w : Word,
    ((w.extractLsb' 25 7 = 0#7) ↔ (w >>> 22).toNat < 8) ∧
    ((w.extractLsb' 25 7 = 0#7) ↔ (0 ≤ (w.sshiftRight 22).toInt ∧ (w.sshiftRight 22).toInt < 8)) ∧
    (w.extractLsb' 25 7 = 0#7 →
      (w >>> 22).toNat = (w.extractLsb' 22 3).toNat ∧ (w.sshiftRight 22).toInt = (w.extractLsb' 22 3).toNat) ∧
    ((∃ i, decode w = .ok i) ↔ w.extractLsb' 25 7 = 0#7)

/-- R48: the decoder is total. Each word is one well-formed instruction or the unknown opcode, the latter exactly when bits
31:25 are not 0. -/
def Obligations.DecoderIsTotal : Prop :=
  ∀ w : Word,
    (w.extractLsb' 25 7 = 0#7 → ∃ i, decode w = .ok i ∧ i.wellFormed = true) ∧
    (w.extractLsb' 25 7 ≠ 0#7 → decode w = .error (.unknownOpcode w))

/-- R58 to R61: the encoder packs each field at its place and leaves every other bit 0; an offset is packed as its
two's-complement pattern. -/
def Obligations.PackingPlacesEachField : Prop :=
  (∀ a b d : Reg, (encode (.add a b d)).map BitVec.toNat = some (a.val * 2 ^ 19 + b.val * 2 ^ 16 + d.val)) ∧
  (∀ a b d : Reg, (encode (.nand a b d)).map BitVec.toNat = some (2 ^ 22 + a.val * 2 ^ 19 + b.val * 2 ^ 16 + d.val)) ∧
  (∀ (a b : Reg) (off : Int), OffsetInRange off →
    (encode (.lw a b off)).map BitVec.toNat =
      some (2 * 2 ^ 22 + a.val * 2 ^ 19 + b.val * 2 ^ 16 + (off % 2 ^ 16).toNat) ∧
    (encode (.sw a b off)).map BitVec.toNat =
      some (3 * 2 ^ 22 + a.val * 2 ^ 19 + b.val * 2 ^ 16 + (off % 2 ^ 16).toNat) ∧
    (encode (.beq a b off)).map BitVec.toNat =
      some (4 * 2 ^ 22 + a.val * 2 ^ 19 + b.val * 2 ^ 16 + (off % 2 ^ 16).toNat)) ∧
  (∀ a b : Reg, (encode (.jalr a b)).map BitVec.toNat = some (5 * 2 ^ 22 + a.val * 2 ^ 19 + b.val * 2 ^ 16)) ∧
  (encode .halt).map BitVec.toNat = some 25165824 ∧ (encode .noop).map BitVec.toNat = some 29360128

/-- R56: encode and decode are inverse bijections between the signed range and the patterns of a field of at least one
bit. -/
def Obligations.CodecRoundTrip : Prop :=
  ∀ w : Nat, 1 ≤ w →
    (∀ v : Int, -(2 ^ (w - 1)) ≤ v → v ≤ 2 ^ (w - 1) - 1 → ∃ u, encodeSigned v w = some u ∧ decodeSigned u = v) ∧
    (∀ u : BitVec w, encodeSigned (decodeSigned u) w = some u)

/-- R53, R54: encode gives `v` where `v >= 0` and `2^w + v` where `v < 0`, and no value out of the signed range. -/
def Obligations.CodecEncodeValue : Prop :=
  ∀ (w : Nat) (v : Int), 1 ≤ w →
    (-(2 ^ (w - 1)) ≤ v ∧ v ≤ 2 ^ (w - 1) - 1 →
      ∃ u, encodeSigned v w = some u ∧ (u.toNat : Int) = if 0 ≤ v then v else 2 ^ w + v) ∧
    (¬ (-(2 ^ (w - 1)) ≤ v ∧ v ≤ 2 ^ (w - 1) - 1) → encodeSigned v w = none)

/-- R55: decode gives `u - 2^w` where the top bit is 1 and `u` otherwise, a value in the signed range. -/
def Obligations.CodecDecodeValue : Prop :=
  ∀ (w : Nat) (u : BitVec w), 1 ≤ w →
    decodeSigned u = (if u.getLsbD (w - 1) then (u.toNat : Int) - 2 ^ w else u.toNat) ∧
    -(2 ^ (w - 1)) ≤ decodeSigned u ∧ decodeSigned u ≤ 2 ^ (w - 1) - 1

/-! The eight instructions: each completes, with its result and its frame. -/

/-- R74: add, its encoding and its effect. The destination takes the sum modulo 2^32; nothing else changes, no event is
raised, and the pc stays at pc_inc. -/
def Obligations.AddWritesWrappedSum : Prop :=
  (∀ w : Word, w.extractLsb' 22 10 = 0#10 → decode w = .ok (.add (regA w) (regB w) (regD w))) ∧
  ∀ (a b d : Reg) (s : State), ∃ t, exec (.add a b d) s = .next t ∧
    (2 ^ 32 : Int) ∣ (t.reg d).toInt - ((s.reg a).toInt + (s.reg b).toInt) ∧
    KeepsRegsBut d s t ∧ KeepsMem s t ∧ t.pc = s.pc ∧ t.status = s.status ∧ t.event = s.event ∧ KeepsConfig s t

/-- R75: nand, its encoding and its effect. Each bit of the destination is 0 exactly where both sources have 1; nothing else
changes. -/
def Obligations.NandWritesBitwiseNotAnd : Prop :=
  (∀ w : Word, w.extractLsb' 22 10 = 1#10 → decode w = .ok (.nand (regA w) (regB w) (regD w))) ∧
  ∀ (a b d : Reg) (s : State), ∃ t, exec (.nand a b d) s = .next t ∧
    (∀ i : Nat, i < 32 → (t.reg d).getLsbD i = !((s.reg a).getLsbD i && (s.reg b).getLsbD i)) ∧
    KeepsRegsBut d s t ∧ KeepsMem s t ∧ t.pc = s.pc ∧ t.status = s.status ∧ t.event = s.event ∧ KeepsConfig s t

/-- R78, R89: lw, its encoding and its effect. In bounds the data register takes the word at the effective address; out of
bounds the event carries the exact address and no register changes. Memory and the rest never change. -/
def Obligations.LwLoadsOrReports : Prop :=
  (∀ w : Word, w.extractLsb' 22 10 = 2#10 → decode w = .ok (.lw (regA w) (regB w) (offset w))) ∧
  ∀ (a b : Reg) (off : Int) (s : State), ∃ t, exec (.lw a b off) s = .next t ∧
    (InBounds s (effectiveAddress s a off) →
      t.reg b = s.memRead (effectiveAddress s a off).toNat ∧ t.event = s.event) ∧
    (¬ InBounds s (effectiveAddress s a off) →
      t.reg b = s.reg b ∧ t.event = some (.memOutOfBounds (effectiveAddress s a off))) ∧
    KeepsRegsBut b s t ∧ KeepsMem s t ∧ t.pc = s.pc ∧ t.status = s.status ∧ KeepsConfig s t

/-- R79, R89: sw, its encoding and its effect. In bounds the word at the effective address becomes the data register's value
and every other word is unchanged; out of bounds the event carries the exact address and no word changes. No register ever
changes. -/
def Obligations.SwStoresOrReports : Prop :=
  (∀ w : Word, w.extractLsb' 22 10 = 3#10 → decode w = .ok (.sw (regA w) (regB w) (offset w))) ∧
  ∀ (a b : Reg) (off : Int) (s : State), s.mem.wf = true → ∃ t, exec (.sw a b off) s = .next t ∧
    (InBounds s (effectiveAddress s a off) →
      t.memRead (effectiveAddress s a off).toNat = s.reg b ∧
      KeepsMemBut (effectiveAddress s a off).toNat s t ∧ t.event = s.event) ∧
    (¬ InBounds s (effectiveAddress s a off) →
      KeepsMem s t ∧ t.event = some (.memOutOfBounds (effectiveAddress s a off))) ∧
    KeepsRegs s t ∧ t.pc = s.pc ∧ t.status = s.status ∧ KeepsConfig s t

/-- R77: the effective address is the exact sum, in -2^31-32768..2^31-1+32767, and under R6's bound a sum wrapped to 32 bits
passes the bounds check exactly when the exact sum does, at the same address. -/
def Obligations.EffectiveAddressIsExactAndWrapImmaterial : Prop :=
  ∀ (s : State) (a : Reg) (off : Int), s.CapOk → OffsetInRange off →
    effectiveAddress s a off = (s.reg a).toInt + off ∧
    -2147483648 - 32768 ≤ effectiveAddress s a off ∧ effectiveAddress s a off ≤ 2147483647 + 32767 ∧
    (InBounds s (effectiveAddress s a off) ↔ InBounds s (s.reg a + BitVec.ofInt 32 off).toInt) ∧
    (InBounds s (effectiveAddress s a off) → (s.reg a + BitVec.ofInt 32 off).toInt = effectiveAddress s a off)

/-- R81: beq, its encoding and its effect at the pc values a fetch leaves (1..MEMCAP). The pc moves by the exact offset where
the registers are equal and stays at pc_inc where they are not; nothing else changes. -/
def Obligations.BeqBranchesExactly : Prop :=
  (∀ w : Word, w.extractLsb' 22 10 = 4#10 → decode w = .ok (.beq (regA w) (regB w) (offset w))) ∧
  ∀ (a b : Reg) (off : Int) (s : State), s.CapOk → OffsetInRange off → 1 ≤ s.pc.toInt → s.pc.toInt ≤ s.memcap →
    ∃ t, exec (.beq a b off) s = .next t ∧
      (s.reg a = s.reg b → t.pc.toInt = s.pc.toInt + off) ∧ (s.reg a ≠ s.reg b → t.pc = s.pc) ∧
      KeepsRegs s t ∧ KeepsMem s t ∧ t.status = s.status ∧ t.event = s.event ∧ KeepsConfig s t

/-- beq completes at every pc and offset, also where R81's exact sum would not fit: the pc is then the sum modulo 2^32 (the
model's own choice, outside the states a run reaches; log entry 9). -/
def Obligations.BeqCompletesEverywhere : Prop :=
  ∀ (a b : Reg) (off : Int) (s : State), ∃ t, exec (.beq a b off) s = .next t ∧
    (2 ^ 32 : Int) ∣ t.pc.toInt - (if s.reg a = s.reg b then s.pc.toInt + off else s.pc.toInt) ∧
    KeepsRegs s t ∧ KeepsMem s t ∧ t.status = s.status ∧ t.event = s.event ∧ KeepsConfig s t

/-- R82: jalr, its encoding and its effect. The link register takes pc_inc first; the pc then takes regA as it reads after
that write, so with A = B the jump goes to pc_inc. -/
def Obligations.JalrLinksThenJumps : Prop :=
  (∀ w : Word, w.extractLsb' 22 10 = 5#10 → decode w = .ok (.jalr (regA w) (regB w))) ∧
  ∀ (a b : Reg) (s : State), ∃ t, exec (.jalr a b) s = .next t ∧
    t.reg b = s.pc ∧ t.pc = (if a = b then s.pc else s.reg a) ∧ t.pc = t.reg a ∧
    KeepsRegsBut b s t ∧ KeepsMem s t ∧ t.status = s.status ∧ t.event = s.event ∧ KeepsConfig s t

/-- R83, R93: halt, its encoding and its effect. The status becomes Halted with the event Halt(pc_inc), the pc, registers and
memory stay, and no further step exists. -/
def Obligations.HaltEndsTheRun : Prop :=
  (∀ w : Word, w.extractLsb' 22 10 = 6#10 → decode w = .ok .halt) ∧
  ∀ s : State, ∃ t, exec .halt s = .next t ∧ t.status = .halted ∧ t.event = some (.halt s.pc) ∧ t.pc = s.pc ∧
    KeepsRegs s t ∧ KeepsMem s t ∧ KeepsConfig s t ∧ ∀ u, step t ≠ .next u

/-- R84: noop, its encoding and its effect, which is none. -/
def Obligations.NoopDoesNothing : Prop :=
  (∀ w : Word, w.extractLsb' 22 10 = 7#10 → decode w = .ok .noop) ∧
  ∀ s : State, ∃ t, exec .noop s = .next t ∧ t.pc = s.pc ∧
    KeepsRegs s t ∧ KeepsMem s t ∧ t.status = s.status ∧ t.event = s.event ∧ KeepsConfig s t

/-! The cycle. -/

/-- R45: a step of a Running block at an in-bounds pc whose word decodes to `i` is exec of `i` on the state with the pc
incremented and no event yet; the increment is exact under R6's bound. -/
def Obligations.StepRunsDecodedInstruction : Prop :=
  ∀ (s : State) (i : Instr), s.status = .running → InBounds s s.pc.toInt → decode (fetched s) = .ok i →
    step s = exec i { s with pc := s.pc + 1#32, event := none } ∧
    (s.CapOk → (s.pc + 1#32).toInt = s.pc.toInt + 1)

/-- R85, R90: a step whose fetched word has a 1 in bits 31:25 reports the word and advances the pc by one; nothing else
changes and the run goes on. -/
def Obligations.UnknownOpcodeIsReportedAndSkipped : Prop :=
  ∀ s : State, s.CapOk → s.status = .running → InBounds s s.pc.toInt → (fetched s).extractLsb' 25 7 ≠ 0#7 →
    ∃ t, step s = .next t ∧ t.event = some (.unknownOpcode (fetched s)) ∧ t.pc.toInt = s.pc.toInt + 1 ∧
      t.status = .running ∧ KeepsRegs s t ∧ KeepsMem s t ∧ KeepsConfig s t

/-- R91: a fetch at pc >= MEMCAP ends the run with status PcOutOfBounds and its event; pc, registers and memory stay. -/
def Obligations.FetchPastCapacityEndsTheRun : Prop :=
  ∀ s : State, s.status = .running → (s.memcap : Int) ≤ s.pc.toInt →
    ∃ t, step s = .next t ∧ t.status = .pcOutOfBounds ∧ t.event = some (.pcOutOfBounds s.pc) ∧ t.pc = s.pc ∧
      KeepsRegs s t ∧ KeepsMem s t ∧ KeepsConfig s t ∧ ∀ u, step t ≠ .next u

/-- R92: a fetch at pc < 0 ends the run with status NegativePcFault and its event; pc, registers and memory stay, and the end
is neither normal nor safe. -/
def Obligations.FetchAtNegativePcIsAFault : Prop :=
  ∀ s : State, s.status = .running → s.pc.toInt < 0 →
    ∃ t, step s = .next t ∧ t.status = .negativePcFault ∧ t.event = some (.negativePc s.pc) ∧ t.pc = s.pc ∧
      KeepsRegs s t ∧ KeepsMem s t ∧ KeepsConfig s t ∧ (∀ u, step t ≠ .next u) ∧ ¬ t.EndedNormally ∧ ¬ t.Safe

/-- R98: the terminal statuses have no step. -/
def Obligations.TerminalStatusHasNoStep : Prop :=
  ∀ s : State, s.status = .halted ∨ s.status = .pcOutOfBounds ∨ s.status = .negativePcFault → ∀ t, step s ≠ .next t

/-- How the model says that a terminal status has no step: by a fault named after the status (the model's choice, log
entry 3). -/
def Obligations.StepFaultNamesTheStatus : Prop :=
  ∀ s : State,
    (s.status = .halted → step s = .fault .halted) ∧
    (s.status = .pcOutOfBounds → step s = .fault .pcOutOfBounds) ∧
    (s.status = .negativePcFault → step s = .fault .negativePcFault) ∧
    ((∃ f, step s = .fault f) ↔ s.status ≠ .running) ∧ ∀ r, step s ≠ .refused r

/-- Every Running state has exactly one successor (R111), and a state with a successor is Running (R98). -/
def Obligations.RunningStateHasExactlyOneSuccessor : Prop :=
  ∀ s : State, s.status = .running ↔ ∃ t, step s = .next t ∧ ∀ u, step s = .next u → u = t

/-- R89: a step of lw or sw whose effective address is out of bounds reports the exact address; no register and no memory
word changes, the pc is pc_inc and the status stays Running. -/
def Obligations.OutOfBoundsAccessIsReportedAndSkipped : Prop :=
  ∀ (s : State) (a b : Reg) (off : Int), s.CapOk → s.status = .running → InBounds s s.pc.toInt →
    decode (fetched s) = .ok (.lw a b off) ∨ decode (fetched s) = .ok (.sw a b off) →
    ¬ InBounds s (effectiveAddress s a off) →
    ∃ t, step s = .next t ∧ t.event = some (.memOutOfBounds ((s.reg a).toInt + off)) ∧ t.pc.toInt = s.pc.toInt + 1 ∧
      t.status = .running ∧ KeepsRegs s t ∧ KeepsMem s t ∧ KeepsConfig s t

/-- Every instruction completes in every state, and so does every fetched word: nothing traps and nothing is refused (R48,
R87, R97). -/
def Obligations.EveryWordCompletes : Prop :=
  (∀ (i : Instr) (s : State), ∃ t, exec i s = .next t) ∧ ∀ (w : Word) (s : State), ∃ t, executeWord w s = .next t

/-- R24: the pc after a step, for every row of the table, and the status of its last three rows. -/
def Obligations.PcAfterEachStep : Prop :=
  ∀ s : State, s.CapOk → s.status = .running → ∃ t, step s = .next t ∧
    (InBounds s s.pc.toInt →
      t.pc.toInt = pcAfter s (fetched s) ∧ (decode (fetched s) = .ok .halt → t.status = .halted)) ∧
    ((s.memcap : Int) ≤ s.pc.toInt → t.pc = s.pc ∧ t.status = .pcOutOfBounds) ∧
    (s.pc.toInt < 0 → t.pc = s.pc ∧ t.status = .negativePcFault)

/-- R88: each step reports none or one of the five events, with the info, the cause and the continuation of the table. -/
def Obligations.EventsComeWithTheirCauseAndStatus : Prop :=
  ∀ s t : State, step s = .next t →
    match t.event with
    | none => t.status = .running ∧ InBounds s s.pc.toInt
    | some (.memOutOfBounds ea) =>
        t.status = .running ∧ InBounds s s.pc.toInt ∧ ¬ InBounds s ea ∧
        ∃ a b off, (decode (fetched s) = .ok (.lw a b off) ∨ decode (fetched s) = .ok (.sw a b off)) ∧
          ea = (s.reg a).toInt + off
    | some (.unknownOpcode w) =>
        t.status = .running ∧ InBounds s s.pc.toInt ∧ w = fetched s ∧ w.extractLsb' 25 7 ≠ 0#7
    | some (.pcOutOfBounds p) => t.status = .pcOutOfBounds ∧ p = s.pc ∧ (s.memcap : Int) ≤ s.pc.toInt
    | some (.negativePc p) => t.status = .negativePcFault ∧ p = s.pc ∧ s.pc.toInt < 0
    | some (.halt p) =>
        t.status = .halted ∧ InBounds s s.pc.toInt ∧ decode (fetched s) = .ok .halt ∧ p = s.pc + 1#32

/-- R9, R12: a step writes at most one register or one memory word, never both. The register is the one R11's table names
for the fetched word, the memory word the one at the effective address of a fetched sw, in bounds. -/
def Obligations.StepWritesAtMostOnePlace : Prop :=
  ∀ s t : State, step s = .next t →
    (t.mem = s.mem ∧
      ∀ r, t.reg r ≠ s.reg r → InBounds s s.pc.toInt ∧ registerWritten (fetched s) s = some r) ∨
    (KeepsRegs s t ∧ InBounds s s.pc.toInt ∧ ∃ a b off, decode (fetched s) = .ok (.sw a b off) ∧
      InBounds s (effectiveAddress s a off) ∧ KeepsMemBut (effectiveAddress s a off).toNat s t)

/-- R11: a register changes only where the table's row names it as written, lw only in bounds. -/
def Obligations.OnlyTheNamedRegisterIsWritten : Prop :=
  ∀ (w : Word) (s t : State), executeWord w s = .next t → ∀ r, t.reg r ≠ s.reg r → registerWritten w s = some r

/-- R11: a register that is neither read nor written by the table's row has no influence on the step and keeps its value. -/
def Obligations.UnreadRegistersDoNotMatter : Prop :=
  ∀ (w : Word) (s : State) (r : Reg) (v : Word), r ∉ registersRead w → registerWritten w s ≠ some r →
    executeWord w (s.setReg r v) = mapNext (fun t => t.setReg r v) (executeWord w s)

/-- R16: no step changes numLoaded, and no instruction reads it. No step changes the capacity either (R23). -/
def Obligations.NumLoadedIsFixedAndUnread : Prop :=
  (∀ s t : State, step s = .next t → t.numLoaded = s.numLoaded ∧ t.memcap = s.memcap) ∧
  ∀ (s : State) (n : Nat), step { s with numLoaded := n } = mapNext (fun t => { t with numLoaded := n }) (step s)

/-! Memory. -/

/-- R25, R28: the only step that changes a memory word is a sw in bounds, and it changes the word at its effective address
alone. -/
def Obligations.OnlySwChangesMemory : Prop :=
  ∀ s t : State, step s = .next t → ∀ n, t.memRead n ≠ s.memRead n →
    ∃ a b off, decode (fetched s) = .ok (.sw a b off) ∧ InBounds s (effectiveAddress s a off) ∧
      n = (effectiveAddress s a off).toNat

/-- R34: a lw of the address a sw wrote loads the stored value, whichever registers and offsets form the two addresses. -/
def Obligations.LoadAfterStoreGivesStoredWord : Prop :=
  ∀ (s : State) (a b c d : Reg) (off off' : Int), s.mem.wf = true → InBounds s (effectiveAddress s a off) →
    effectiveAddress s c off' = effectiveAddress s a off →
    ∃ t u, exec (.sw a b off) s = .next t ∧ exec (.lw c d off') t = .next u ∧ u.reg d = s.reg b

/-- R36: after a step that stores in bounds at the address the pc comes to hold, the very next step executes the stored
word. -/
def Obligations.StoredWordIsFetchedNext : Prop :=
  ∀ (s : State) (a b : Reg) (off : Int), s.CapOk → s.mem.wf = true → s.status = .running → InBounds s s.pc.toInt →
    decode (fetched s) = .ok (.sw a b off) → InBounds s (effectiveAddress s a off) →
    effectiveAddress s a off = s.pc.toInt + 1 →
    ∃ t, step s = .next t ∧ step t = executeWord (s.reg b) { t with pc := t.pc + 1#32, event := none }

/-! The whole machine. -/

/-- Every step keeps the invariant: capacity in its bound, memory canonical and within the capacity, no more words loaded
than fit, and status, pc and event in agreement. -/
def Obligations.EveryStepKeepsTheInvariant : Prop :=
  ∀ s t : State, s.Inv → step s = .next t → t.Inv

/-- The invariant holds at reset, whatever the capacity (R6) is. -/
def Obligations.ResetHoldsTheInvariant : Prop := State.reset.Inv

/-- A step of the instruction cycle (R45) is one clock of the single-cycle datapath of R12 and R21. -/
def Obligations.DatapathRefinesStep : Prop :=
  ∀ s : State, s.status = .running → step s = .next (clock s)

/-- R22, R100, R102, R103: reset-and-load leaves registers 0, the image from address 0 on and 0 above it, pc 0, Running, and
numLoaded the number placed, and warns exactly when words were discarded. -/
def Obligations.LoadGivesTheInitialState : Prop :=
  ∀ (cap : Nat) (img : List Word), 1 ≤ cap → cap ≤ 2 ^ 31 - 2 ^ 15 → ∃ r, resetAndLoad cap img = some r ∧
    (∀ q, r.state.reg q = 0#32) ∧
    (∀ n, n < min img.length cap → some (r.state.memRead n) = img[n]?) ∧
    (∀ n, min img.length cap ≤ n → r.state.memRead n = 0#32) ∧
    r.state.pc = 0#32 ∧ r.state.status = .running ∧ r.state.memcap = cap ∧
    r.state.numLoaded = min img.length cap ∧ (r.report = some .memoryOverflow ↔ cap < img.length)

/-- The state after reset-and-load of any image holds the invariant. -/
def Obligations.LoadedStateHoldsTheInvariant : Prop :=
  ∀ (cap : Nat) (img : List Word) (r : LoadResult), resetAndLoad cap img = some r → r.state.Inv

/-- A capacity outside R6's bound is refused at load (D1). -/
def Obligations.LoadRefusesCapacityOutOfBound : Prop :=
  ∀ (cap : Nat) (img : List Word), ¬ (1 ≤ cap ∧ cap ≤ 2 ^ 31 - 2 ^ 15) → resetAndLoad cap img = none

/-- The state after reset is reset-and-load of the empty image: every register, every memory word and the pc are 0, the
status is Running, no word is loaded (R22), and the capacity is within R6's bound. That its event output is none is the
model's choice (log entry 2). -/
def Obligations.ResetIsTheEmptyLoad : Prop :=
  resetAndLoad State.reset.memcap [] = some ⟨State.reset, none⟩ ∧ (∀ r, State.reset.reg r = 0#32) ∧
  (∀ n, State.reset.memRead n = 0#32) ∧ State.reset.pc = 0#32 ∧ State.reset.status = .running ∧
  State.reset.numLoaded = 0 ∧ State.reset.event = none ∧ State.reset.CapOk

/-! Observation and the end of a run. -/

/-- R96: a snapshot shows the pc, numLoaded, each loaded word with its index and each of the eight registers with its
index. -/
def Obligations.SnapshotShowsTheStatedFields : Prop :=
  ∀ s : State,
    s.snapshot.pc = s.pc ∧ s.snapshot.numLoaded = s.numLoaded ∧
    s.snapshot.words.length = s.numLoaded ∧
    (∀ i, i < s.numLoaded → s.snapshot.words[i]? = some (i, s.memRead i)) ∧
    s.snapshot.regs = [(0, s.reg 0), (1, s.reg 1), (2, s.reg 2), (3, s.reg 3), (4, s.reg 4), (5, s.reg 5), (6, s.reg 6),
      (7, s.reg 7)]

/-- A store at or above numLoaded leaves the words a snapshot shows as they were (R79, R96). -/
def Obligations.StoreAboveLoadedIsNotShown : Prop :=
  ∀ (a b : Reg) (off : Int) (s : State), InBounds s (effectiveAddress s a off) →
    (s.numLoaded : Int) ≤ effectiveAddress s a off →
    ∃ t, exec (.sw a b off) s = .next t ∧ t.snapshot.words = s.snapshot.words

/-- A run has ended exactly when the status has left Running (R106): `k` fuel finds the state `f` exactly when `f` is reached
by at most `k` steps and is not Running. More fuel then changes nothing and no observation follows; a state that is not
Running is its own end; and a step passes the question on to its next state (R98, R107). -/
def Obligations.EndOfRunIsFinal : Prop :=
  (∀ (k : Nat) (s f : State),
    finalState? k s = some f ↔ f.status ≠ .running ∧ ∃ n, n ≤ k ∧ Reaches n s f) ∧
  (∀ (k : Nat) (s f : State), finalState? k s = some f →
    (∀ j, k ≤ j → finalState? j s = some f) ∧ ∀ j, observe j f = []) ∧
  (∀ (k : Nat) (s : State), s.status ≠ .running → finalState? k s = some s) ∧
  ∀ (k : Nat) (s t : State), step s = .next t → finalState? (k + 1) s = finalState? k t

/-! The assembler and the image text. -/

/-- A successful assembly gives one word per non-blank line, and the word at index `j` is the one of the line at address `j`
under the symbol table of pass 1 (R64, R71). -/
def Obligations.OneWordPerNonBlankLine : Prop :=
  ∀ (text : List Char) (ws : List Word), assemble text = .ok ws →
    ws.length = (programLines text).length ∧
    ∃ sym, pass1 0 [] (programLines text) = .ok sym ∧
      ∀ j l, (programLines text)[j]? = some l → ∃ w, ws[j]? = some w ∧ assembleLine sym j l = .ok w

/-- The persisted text of an image reads back as that image, with no line skipped (R71). -/
def Obligations.ImageTextRoundTrip : Prop :=
  ∀ ws : List Word, readImage (renderImage ws) = ws ∧ skippedLines (renderImage ws) = []

/-- A label defined on two lines aborts the assembly, wherever the two lines stand (R65, R70). -/
def Obligations.DuplicateLabelAborts : Prop :=
  ∀ (text : List Char) (i j : Nat) (li lj : List Token) (t : Token), i < j →
    (programLines text)[i]? = some li → (programLines text)[j]? = some lj →
    leadLabel? li = some t → leadLabel? lj = some t → assemble text = .error .duplicateLabel

/-- Pass 1 binds a label to the 0-based index of its line among the non-blank lines (R64). -/
def Obligations.LabelAddressIsLineIndex : Prop :=
  ∀ (text : List Char) (sym : Symbols) (j : Nat) (l : List Token) (t : Token),
    pass1 0 [] (programLines text) = .ok sym → (programLines text)[j]? = some l → leadLabel? l = some t →
    sym.lookup t = some j

/-- A beq at address `p` whose offset was resolved from a label at address `a` lands on `a` when taken (R68, R81). -/
def Obligations.BeqToLabelLandsOnLabel : Prop :=
  ∀ (sym : Symbols) (p a : Nat) (t : Token) (off : Int) (x y : Reg) (s : State),
    sym.lookup t = some a → resolveOffset sym p true t = .ok off → s.CapOk → p < s.memcap → s.pc.toInt = p + 1 →
    s.reg x = s.reg y → ∃ u, exec (.beq x y off) s = .next u ∧ u.pc.toInt = a

/-- R68: an offset operand resolves to the label's address (lw, sw), to the label's distance from the next line (beq) or to
the literal's value, and to nothing outside -32768..32767. -/
def Obligations.OffsetOperandResolution : Prop :=
  ∀ (sym : Symbols) (p : Nat) (rel : Bool) (t : Token),
    (∀ a v, sym.lookup t = some a → v = (if rel then (a : Int) - (p + 1) else a) →
      resolveOffset sym p rel t = if -32768 ≤ v ∧ v ≤ 32767 then .ok v else .error .offsetOutOfRange) ∧
    (∀ v, sym.lookup t = none → parseLiteral? t = some v →
      resolveOffset sym p rel t = if -32768 ≤ v ∧ v ≤ 32767 then .ok v else .error .offsetOutOfRange) ∧
    (sym.lookup t = none → parseLiteral? t = none → resolveOffset sym p rel t = .error .undefinedSymbolOrBadLiteral)

/-- A line whose mnemonic and operands spell an instruction assembles to that instruction's encoding, which decodes back to
it and has bits 31:25 zero; and a line that assembles either spells an instruction in this way, with its encoding as the
word, or is a `.fill` (R42, R46, R58 to R61, R63, R66 to R68). -/
def Obligations.AssembledInstructionDecodesBack : Prop :=
  ∀ (sym : Symbols) (p : Nat) (l : List Token),
    (∀ (i : Instr) (operands : List Token), LineOf (mnemonicOf i) operands l → OperandsSpell sym p operands i →
      i.wellFormed = true ∧
      ∃ w, assembleLine sym p l = .ok w ∧ encode i = some w ∧ decode w = .ok i ∧ w.toNat < 2 ^ 25) ∧
    ∀ w, assembleLine sym p l = .ok w →
      (∃ i operands, LineOf (mnemonicOf i) operands l ∧ OperandsSpell sym p operands i ∧ encode i = some w) ∨
      ∃ operands, LineOf fillWord operands l

/-- R62, R69: a `.fill` line whose operand has a value in -2^31..2^31-1 assembles to the word of that signed value, the
codec's pattern of it; an operand that is a literal outside that range, or neither a label nor a literal, fails with
UndefinedSymbolOrBadLiteral. -/
def Obligations.FillLineGivesItsValue : Prop :=
  ∀ (sym : Symbols) (p : Nat) (l : List Token) (t : Token), LineOf fillWord [t] l →
    (∀ v, SpellsValue sym t v → -2 ^ 31 ≤ v → v ≤ 2 ^ 31 - 1 →
      ∃ w, assembleLine sym p l = .ok w ∧ encodeSigned v 32 = some w ∧ w.toInt = v) ∧
    (∀ v, sym.lookup t = none → parseLiteral? t = some v → ¬ (-2 ^ 31 ≤ v ∧ v ≤ 2 ^ 31 - 1) →
      assembleLine sym p l = .error .undefinedSymbolOrBadLiteral) ∧
    (sym.lookup t = none → parseLiteral? t = none → assembleLine sym p l = .error .undefinedSymbolOrBadLiteral) ∧
    ∀ w, assembleLine sym p l = .ok w → SpellsValue sym t w.toInt

/-- R66, R67: a line with neither a mnemonic nor `.fill` after its label, or with a label only, fails with InvalidOpcode; a
line with a wrong number of operands with OperandCount, which comes first where an operand is bad as well (the model's choice,
log entry 6); and a line of the right count with a register operand that names no register, its offset operand (if any)
resolving, with BadRegisterOperand. -/
def Obligations.RejectedLineNamesItsError : Prop :=
  ∀ (sym : Symbols) (p : Nat),
    (∀ label, label ∉ keywordTokens → assembleLine sym p [label] = .error .invalidOpcode) ∧
    (∀ label k operands, label ∉ keywordTokens → k ∉ keywordTokens →
      assembleLine sym p (label :: k :: operands) = .error .invalidOpcode) ∧
    (∀ k operands l, k ∈ keywordTokens → LineOf k operands l → operands.length ≠ operandCountOf k →
      assembleLine sym p l = .error .operandCount) ∧
    (∀ k ta tb td l, k = "add".toList ∨ k = "nand".toList → LineOf k [ta, tb, td] l →
      SpellsNoReg ta ∨ SpellsNoReg tb ∨ SpellsNoReg td → assembleLine sym p l = .error .badRegisterOperand) ∧
    (∀ ta tb l, LineOf "jalr".toList [ta, tb] l → SpellsNoReg ta ∨ SpellsNoReg tb →
      assembleLine sym p l = .error .badRegisterOperand) ∧
    ∀ k ta tb tv off l, k = "lw".toList ∨ k = "sw".toList ∨ k = "beq".toList → LineOf k [ta, tb, tv] l →
      SpellsNoReg ta ∨ SpellsNoReg tb → SpellsOffset sym p (decide (k = "beq".toList)) tv off →
      assembleLine sym p l = .error .badRegisterOperand

end
end

