-- ==== Sys2Proof/Laws/Assembler.lean ====
section
/-! SUPPORT. What each step of the assembler answers, said once: keywords, operands, operand lists and whole lines. -/

namespace Sys2Proof.Machine

/-- A computation that can fail answers a value exactly when its first part does and the rest does from there. -/
theorem bind_eq_ok_iff {α β : Type} {x : Except AsmError α} {f : α → Except AsmError β} {r : β} :
    (x >>= f) = .ok r ↔ ∃ a, x = .ok a ∧ f a = .ok r := by
  cases x with
  | ok a => exact ⟨fun h => ⟨a, rfl, h⟩, fun ⟨_, h, h'⟩ => by cases h; exact h'⟩
  | error e => exact iff_of_false (fun h => by cases h) (fun ⟨_, h, _⟩ => by cases h)

/-- The spelling of a keyword (R66). -/
def Keyword.token : Keyword → Token
  | .op .add => ['a', 'd', 'd']
  | .op .nand => ['n', 'a', 'n', 'd']
  | .op .lw => ['l', 'w']
  | .op .sw => ['s', 'w']
  | .op .beq => ['b', 'e', 'q']
  | .op .jalr => ['j', 'a', 'l', 'r']
  | .op .halt => ['h', 'a', 'l', 't']
  | .op .noop => ['n', 'o', 'o', 'p']
  | .fill => ['.', 'f', 'i', 'l', 'l']

/-- Recognition is exact: a token is a keyword exactly when it is that keyword's spelling (R66). -/
theorem keyword?_eq_some_iff (t : Token) (k : Keyword) : keyword? t = some k ↔ t = k.token := by
  constructor
  · intro h
    unfold keyword? at h
    repeat' split at h
    all_goals cases h
    all_goals assumption
  · rintro rfl
    rcases k with (_ | _ | _ | _ | _ | _ | _ | _) | _ <;> rfl

/-- A register operand is accepted exactly when it is a numeral of the register's number (R67). -/
theorem registerOperand_eq_ok_iff (t : Token) (r : Reg) : registerOperand t = .ok r ↔ parseNumeral? t = some r.val := by
  unfold registerOperand
  cases parseNumeral? t with
  | none => simp
  | some n =>
    by_cases h : n < 8
    · simp [h, Fin.ext_iff]
    · simp only [h, dite_false, reduceCtorEq, Option.some.injEq, false_iff]
      omega

/-- A register operand that names no register fails with BadRegisterOperand (R67). -/
theorem registerOperand_eq_error {t : Token} (h : ∀ r : Reg, parseNumeral? t ≠ some r.val) :
    registerOperand t = .error .badRegisterOperand := by
  unfold registerOperand
  cases hn : parseNumeral? t with
  | none => rfl
  | some n => exact dif_neg fun hlt => h ⟨n, hlt⟩ hn

/-- A register operand names a register or fails with BadRegisterOperand (R67). -/
theorem registerOperand_cases (t : Token) :
    (∃ r, registerOperand t = .ok r) ∨ registerOperand t = .error .badRegisterOperand := by
  by_cases h : ∀ r : Reg, parseNumeral? t ≠ some r.val
  · exact .inr (registerOperand_eq_error h)
  · push Not at h
    exact .inl (h.imp fun r => (registerOperand_eq_ok_iff t r).2)

/-- The range check passes exactly the values in the offset's range (R68). -/
theorem checkedOffset_eq_ok_iff (v off : Int) : checkedOffset v = .ok off ↔ v = off ∧ OffsetInRange off := by
  unfold checkedOffset
  split
  · next h => exact ⟨fun e => by cases e; exact ⟨rfl, h⟩, fun ⟨e, _⟩ => by rw [e]⟩
  · next h => exact iff_of_false (fun e => by cases e) (fun ⟨e, ho⟩ => h (e ▸ ho))

/-- An offset operand resolves to its label's address (for beq less the next line's), or else to its literal, in range
(R68). -/
theorem resolveOffset_eq_ok_iff (sym : Symbols) (p : Nat) (relative : Bool) (t : Token) (off : Int) :
    resolveOffset sym p relative t = .ok off ↔
      ((∃ a, sym.lookup t = some a ∧ off = if relative then (a : Int) - (p + 1) else a) ∨
        (sym.lookup t = none ∧ parseLiteral? t = some off)) ∧ OffsetInRange off := by
  unfold resolveOffset
  cases sym.lookup t with
  | some a => simp [checkedOffset_eq_ok_iff, eq_comm (a := off)]
  | none =>
    cases parseLiteral? t with
    | some v => simp [checkedOffset_eq_ok_iff]
    | none => simp

/-- A `.fill` operand resolves to the pattern of its label's address, or else of its literal (R69). -/
theorem resolveFill_eq_ok_iff (sym : Symbols) (t : Token) (w : Word) :
    resolveFill sym t = .ok w ↔
      ∃ v, ((∃ a, sym.lookup t = some a ∧ v = (a : Int)) ∨ (sym.lookup t = none ∧ parseLiteral? t = some v)) ∧
        encodeSigned v 32 = some w := by
  unfold resolveFill
  cases sym.lookup t with
  | some a => cases h : encodeSigned (a : Int) 32 <;> simp [h]
  | none =>
    cases parseLiteral? t with
    | some v => cases h : encodeSigned v 32 <;> simp [h]
    | none => simp

/-- A resolved instruction packs to its encoding (R58 to R61). -/
theorem packInstr_eq_ok_iff (i : Instr) (w : Word) : packInstr i = .ok w ↔ encode i = some w := by
  unfold packInstr
  cases encode i <;> simp

/-- What the operand list of add or nand assembles to (R58, R63). -/
theorem operandsR_eq_ok_iff (mk : Reg → Reg → Reg → Instr) (ops : List Token) (w : Word) :
    operandsR mk ops = .ok w ↔
      ∃ ta tb td a b d, ops = [ta, tb, td] ∧ registerOperand ta = .ok a ∧ registerOperand tb = .ok b ∧
        registerOperand td = .ok d ∧ encode (mk a b d) = some w := by
  unfold operandsR
  split
  · next ta tb td => simp [bind_eq_ok_iff, packInstr_eq_ok_iff]
  · next h =>
    refine iff_of_false (fun e => by cases e) ?_
    rintro ⟨ta, tb, td, a, b, d, rfl, -⟩
    exact (h _ _ _ rfl).elim

/-- What the operand list of lw, sw or beq assembles to (R59, R63). -/
theorem operandsI_eq_ok_iff (mk : Reg → Reg → Int → Instr) (sym : Symbols) (p : Nat) (relative : Bool) (ops : List Token)
    (w : Word) :
    operandsI mk sym p relative ops = .ok w ↔
      ∃ ta tb tv a b off, ops = [ta, tb, tv] ∧ registerOperand ta = .ok a ∧ registerOperand tb = .ok b ∧
        resolveOffset sym p relative tv = .ok off ∧ encode (mk a b off) = some w := by
  unfold operandsI
  split
  · next ta tb tv => simp [bind_eq_ok_iff, packInstr_eq_ok_iff]
  · next h =>
    refine iff_of_false (fun e => by cases e) ?_
    rintro ⟨ta, tb, tv, a, b, off, rfl, -⟩
    exact (h _ _ _ rfl).elim

/-- What the operand list of jalr assembles to (R60, R63). -/
theorem operandsJ_eq_ok_iff (mk : Reg → Reg → Instr) (ops : List Token) (w : Word) :
    operandsJ mk ops = .ok w ↔
      ∃ ta tb a b, ops = [ta, tb] ∧ registerOperand ta = .ok a ∧ registerOperand tb = .ok b ∧
        encode (mk a b) = some w := by
  unfold operandsJ
  split
  · next ta tb => simp [bind_eq_ok_iff, packInstr_eq_ok_iff]
  · next h =>
    refine iff_of_false (fun e => by cases e) ?_
    rintro ⟨ta, tb, a, b, rfl, -⟩
    exact (h _ _ rfl).elim

/-- What the operand list of halt or noop assembles to (R61, R63). -/
theorem operandsO_eq_ok_iff (i : Instr) (ops : List Token) (w : Word) :
    operandsO i ops = .ok w ↔ ops = [] ∧ encode i = some w := by
  unfold operandsO
  cases ops <;> simp [packInstr_eq_ok_iff]

/-- What the operand list of `.fill` assembles to (R62, R63). -/
theorem operandsFill_eq_ok_iff (sym : Symbols) (ops : List Token) (w : Word) :
    operandsFill sym ops = .ok w ↔ ∃ t, ops = [t] ∧ resolveFill sym t = .ok w := by
  unfold operandsFill
  split
  · next t => simp
  · next h =>
    refine iff_of_false (fun e => by cases e) ?_
    rintro ⟨t, rfl, -⟩
    exact (h _ rfl).elim

/-- A line that starts with a keyword assembles as that keyword's word (R66). -/
theorem assembleLine_of_keyword {k : Token} {kw : Keyword} (h : keyword? k = some kw) (sym : Symbols) (p : Nat)
    (ops : List Token) : assembleLine sym p (k :: ops) = keywordWord sym p kw ops := by
  simp [assembleLine, withoutLabel, leadLabel?, h]

/-- A leading label is stripped: the keyword after it decides (R66). -/
theorem assembleLine_of_label {label k : Token} {kw : Keyword} (hl : keyword? label = none) (h : keyword? k = some kw)
    (sym : Symbols) (p : Nat) (ops : List Token) : assembleLine sym p (label :: k :: ops) = keywordWord sym p kw ops := by
  simp [assembleLine, withoutLabel, leadLabel?, hl, h]

/-- A line that assembles is a keyword with its operands, perhaps after a label (R66). -/
theorem assembleLine_eq_ok {sym : Symbols} {p : Nat} {l : List Token} {w : Word} (h : assembleLine sym p l = .ok w) :
    ∃ k kw ops, keyword? k = some kw ∧ keywordWord sym p kw ops = .ok w ∧
      (l = k :: ops ∨ ∃ label, keyword? label = none ∧ l = label :: k :: ops) := by
  unfold assembleLine at h
  split at h
  · cases h
  next k ops hl =>
    split at h
    next kw hk =>
      refine ⟨k, kw, ops, hk, h, ?_⟩
      cases l with
      | nil => cases hl
      | cons t ts =>
        cases ht : keyword? t with
        | some kt => left; simpa [withoutLabel, leadLabel?, ht] using hl
        | none =>
          right
          refine ⟨t, ht, ?_⟩
          simp only [withoutLabel, leadLabel?, ht, Option.isSome_none, Bool.false_eq_true, if_false, Option.isSome_some,
            if_true, List.tail_cons] at hl
          rw [hl]
    · cases h

end Sys2Proof.Machine
end

