-- ==== Sys2Proof/Laws/Codec.lean ====
section
/-! SUPPORT. The codec and the field extraction in terms of library operations on bit vectors. -/

namespace Sys2Proof

/-- The codec's decode is the signed value of the pattern (R55, R57). -/
theorem decodeSigned_eq_toInt {w : Nat} (u : BitVec w) : decodeSigned u = u.toInt := by
  unfold decodeSigned
  rw [BitVec.toInt_eq_msb_cond]
  push_cast
  rfl

/-- The signed value of `wrap32(n)` is the balanced remainder of `n` modulo 2^32 (R8). -/
theorem toInt_wrap32 (n : Int) : (wrap32 n).toInt = n.bmod (2 ^ 32) := BitVec.toInt_ofInt n

/-- A wrapped value is congruent to the exact one (R8). -/
theorem dvd_toInt_wrap32_sub (n : Int) : (2 ^ 32 : Int) ∣ (wrap32 n).toInt - n := by
  rw [toInt_wrap32]
  refine ⟨-(n.bdiv (2 ^ 32)), ?_⟩
  have := Int.bmod_add_bdiv n (2 ^ 32)
  push_cast at *
  linarith

/-- `wrap32` is exact in the signed 32-bit range (R8). -/
theorem toInt_wrap32_of_range {n : Int} (h1 : -2147483648 ≤ n) (h2 : n ≤ 2147483647) : (wrap32 n).toInt = n := by
  rw [toInt_wrap32]
  norm_num [Int.bmod_def]
  omega

/-- The pattern of a signed value is the word itself. -/
@[simp] theorem wrap32_toInt (w : Word) : wrap32 w.toInt = w := BitVec.ofInt_toInt

/-- `wrap32` of a sum is the sum of the patterns. -/
theorem wrap32_add (m n : Int) : wrap32 (m + n) = wrap32 m + wrap32 n := BitVec.ofInt_add m n

/-- The increment of a word. -/
theorem wrap32_toInt_succ (w : Word) : wrap32 (w.toInt + 1) = w + 1#32 := by
  rw [wrap32_add, wrap32_toInt]; rfl

theorem bits_lt (w : Word) (hi lo : Nat) : bits w hi lo < 2 ^ (hi + 1 - lo) := Nat.mod_lt _ (by positivity)

/-- `w[lo+n-1:lo]` is the library's slice of `n` bits from `lo` on (R7). -/
theorem bits_eq_extractLsb' (w : Word) (lo n : Nat) (hn : 0 < n) : bits w (lo + n - 1) lo = (w.extractLsb' lo n).toNat := by
  rw [BitVec.extractLsb'_toNat, Nat.shiftRight_eq_div_pow, bits]
  congr 2
  omega

/-- The register fields are the library's 3-bit slices (R43). -/
theorem fieldA_eq (w : Word) : fieldA w = (w.extractLsb' 19 3).toFin := by
  apply Fin.ext
  simp [fieldA, bits, Nat.shiftRight_eq_div_pow]

theorem fieldB_eq (w : Word) : fieldB w = (w.extractLsb' 16 3).toFin := by
  apply Fin.ext
  simp [fieldB, bits, Nat.shiftRight_eq_div_pow]

theorem fieldD_eq (w : Word) : fieldD w = (w.extractLsb' 0 3).toFin := by
  apply Fin.ext
  simp [fieldD, bits]

/-- The decoded offset is the signed value of the library's 16-bit slice (R43). -/
theorem fieldOff_eq (w : Word) : fieldOff w = (w.extractLsb' 0 16).toInt := by
  rw [fieldOff, decodeSigned_eq_toInt]
  congr 1
  apply BitVec.eq_of_toNat_eq
  simp [offsetField, bits]

/-- The decoded offset lies in the offset's range (R43). -/
theorem fieldOff_range (w : Word) : OffsetInRange (fieldOff w) := by
  unfold OffsetInRange fieldOff
  rw [decodeSigned_eq_toInt]
  have h1 := BitVec.le_toInt (offsetField w)
  have h2 := BitVec.toInt_lt (x := offsetField w)
  norm_num at h1 h2
  omega

end Sys2Proof
end

