-- ==== Sys2Proof/Laws/State.lean ====
section
/-! SUPPORT. One lemma per field per state update, so that no later proof unfolds a record update. -/

namespace Sys2Proof.Machine

variable (s : State)

@[simp] theorem State.setReg_regs (r : Reg) (v : Word) : (s.setReg r v).regs = s.regs.set r.val v r.isLt := rfl
@[simp] theorem State.setReg_pc (r : Reg) (v : Word) : (s.setReg r v).pc = s.pc := rfl
@[simp] theorem State.setReg_status (r : Reg) (v : Word) : (s.setReg r v).status = s.status := rfl
@[simp] theorem State.setReg_mem (r : Reg) (v : Word) : (s.setReg r v).mem = s.mem := rfl
@[simp] theorem State.setReg_memcap (r : Reg) (v : Word) : (s.setReg r v).memcap = s.memcap := rfl
@[simp] theorem State.setReg_numLoaded (r : Reg) (v : Word) : (s.setReg r v).numLoaded = s.numLoaded := rfl
@[simp] theorem State.setReg_event (r : Reg) (v : Word) : (s.setReg r v).event = s.event := rfl

@[simp] theorem State.setPc_regs (t : Word) : (s.setPc t).regs = s.regs := rfl
@[simp] theorem State.setPc_pc (t : Word) : (s.setPc t).pc = t := rfl
@[simp] theorem State.setPc_status (t : Word) : (s.setPc t).status = s.status := rfl
@[simp] theorem State.setPc_mem (t : Word) : (s.setPc t).mem = s.mem := rfl
@[simp] theorem State.setPc_memcap (t : Word) : (s.setPc t).memcap = s.memcap := rfl
@[simp] theorem State.setPc_numLoaded (t : Word) : (s.setPc t).numLoaded = s.numLoaded := rfl
@[simp] theorem State.setPc_event (t : Word) : (s.setPc t).event = s.event := rfl

@[simp] theorem State.memWrite_regs (a : Nat) (v : Word) : (s.memWrite a v).regs = s.regs := rfl
@[simp] theorem State.memWrite_pc (a : Nat) (v : Word) : (s.memWrite a v).pc = s.pc := rfl
@[simp] theorem State.memWrite_status (a : Nat) (v : Word) : (s.memWrite a v).status = s.status := rfl
@[simp] theorem State.memWrite_mem (a : Nat) (v : Word) : (s.memWrite a v).mem = s.mem.write a v := rfl
@[simp] theorem State.memWrite_memcap (a : Nat) (v : Word) : (s.memWrite a v).memcap = s.memcap := rfl
@[simp] theorem State.memWrite_numLoaded (a : Nat) (v : Word) : (s.memWrite a v).numLoaded = s.numLoaded := rfl
@[simp] theorem State.memWrite_event (a : Nat) (v : Word) : (s.memWrite a v).event = s.event := rfl

@[simp] theorem State.raise_regs (e : Event) : (s.raise e).regs = s.regs := rfl
@[simp] theorem State.raise_pc (e : Event) : (s.raise e).pc = s.pc := rfl
@[simp] theorem State.raise_status (e : Event) : (s.raise e).status = s.status := rfl
@[simp] theorem State.raise_mem (e : Event) : (s.raise e).mem = s.mem := rfl
@[simp] theorem State.raise_memcap (e : Event) : (s.raise e).memcap = s.memcap := rfl
@[simp] theorem State.raise_numLoaded (e : Event) : (s.raise e).numLoaded = s.numLoaded := rfl
@[simp] theorem State.raise_event (e : Event) : (s.raise e).event = some e := rfl

@[simp] theorem State.stop_regs (t : RunStatus) : (s.stop t).regs = s.regs := rfl
@[simp] theorem State.stop_pc (t : RunStatus) : (s.stop t).pc = s.pc := rfl
@[simp] theorem State.stop_status (t : RunStatus) : (s.stop t).status = t := rfl
@[simp] theorem State.stop_mem (t : RunStatus) : (s.stop t).mem = s.mem := rfl
@[simp] theorem State.stop_memcap (t : RunStatus) : (s.stop t).memcap = s.memcap := rfl
@[simp] theorem State.stop_numLoaded (t : RunStatus) : (s.stop t).numLoaded = s.numLoaded := rfl
@[simp] theorem State.stop_event (t : RunStatus) : (s.stop t).event = s.event := rfl

@[simp] theorem State.advance_regs : s.advance.regs = s.regs := rfl
@[simp] theorem State.advance_pc : s.advance.pc = wrap32 (s.pc.toInt + 1) := rfl
@[simp] theorem State.advance_status : s.advance.status = s.status := rfl
@[simp] theorem State.advance_mem : s.advance.mem = s.mem := rfl
@[simp] theorem State.advance_memcap : s.advance.memcap = s.memcap := rfl
@[simp] theorem State.advance_numLoaded : s.advance.numLoaded = s.numLoaded := rfl
@[simp] theorem State.advance_event : s.advance.event = none := rfl

/-! The derived reads: registers, memory words, bounds and the fetch. -/

@[simp] theorem State.memRead_setReg (r : Reg) (v : Word) (n : Nat) : (s.setReg r v).memRead n = s.memRead n := rfl
@[simp] theorem State.address?_setReg (r : Reg) (v : Word) (i : Int) : (s.setReg r v).address? i = s.address? i := rfl
@[simp] theorem State.reg_setPc (t : Word) (q : Reg) : (s.setPc t).reg q = s.reg q := rfl
@[simp] theorem State.memRead_setPc (t : Word) (n : Nat) : (s.setPc t).memRead n = s.memRead n := rfl
@[simp] theorem State.address?_setPc (t : Word) (i : Int) : (s.setPc t).address? i = s.address? i := rfl
@[simp] theorem State.reg_memWrite (a : Nat) (v : Word) (q : Reg) : (s.memWrite a v).reg q = s.reg q := rfl
@[simp] theorem State.address?_memWrite (a : Nat) (v : Word) (i : Int) : (s.memWrite a v).address? i = s.address? i := rfl
@[simp] theorem State.reg_raise (e : Event) (q : Reg) : (s.raise e).reg q = s.reg q := rfl
@[simp] theorem State.memRead_raise (e : Event) (n : Nat) : (s.raise e).memRead n = s.memRead n := rfl
@[simp] theorem State.address?_raise (e : Event) (i : Int) : (s.raise e).address? i = s.address? i := rfl
@[simp] theorem State.reg_stop (t : RunStatus) (q : Reg) : (s.stop t).reg q = s.reg q := rfl
@[simp] theorem State.memRead_stop (t : RunStatus) (n : Nat) : (s.stop t).memRead n = s.memRead n := rfl
@[simp] theorem State.address?_stop (t : RunStatus) (i : Int) : (s.stop t).address? i = s.address? i := rfl
@[simp] theorem State.reg_advance (q : Reg) : s.advance.reg q = s.reg q := rfl
@[simp] theorem State.memRead_advance (n : Nat) : s.advance.memRead n = s.memRead n := rfl
@[simp] theorem State.address?_advance (i : Int) : s.advance.address? i = s.address? i := rfl

/-- A register reads as the value last written to it, and a write reaches no other register (R10). -/
@[simp] theorem State.reg_setReg (r : Reg) (v : Word) (q : Reg) : (s.setReg r v).reg q = if q = r then v else s.reg q := by
  by_cases h : q = r
  · simp [State.reg, State.setReg, Vector.get_eq_getElem, h]
  · have hv : r.val ≠ q.val := fun e => h (Fin.ext e.symm)
    simp [State.reg, State.setReg, Vector.get_eq_getElem, h, hv]

/-- Writes to two different registers commute. -/
theorem State.setReg_comm {r q : Reg} (h : r ≠ q) (v w : Word) :
    (s.setReg r v).setReg q w = (s.setReg q w).setReg r v := by
  have hv : r.val ≠ q.val := fun e => h (Fin.ext e)
  simp only [State.setReg, State.mk.injEq, and_true]
  exact Vector.set_comm v w hv

end Sys2Proof.Machine
end

