-- ==== Sys2Proof/Laws/Memory.lean ====
section
/-! SUPPORT. What the memory operations do: read after write, a write leaves every other word alone, and every operation
keeps the canonical form and the bound of the listed addresses. -/

namespace Sys2Proof.Machine

@[simp] theorem Memory.read_nil (a : Nat) : Memory.read [] a = 0#32 := rfl

/-- No word below the lower bound of a canonical listing is listed. -/
theorem Memory.read_of_lt {m : Memory} {lo a : Nat} (h : Memory.wfFrom lo m = true) (ha : a < lo) :
    Memory.read m a = 0#32 := by
  induction m generalizing lo with
  | nil => rfl
  | cons c m ih =>
    obtain ⟨k, v⟩ := c
    simp only [Memory.wfFrom, Bool.and_eq_true, decide_eq_true_eq] at h
    have hk : ¬ k = a := by omega
    simpa [Memory.read, hk] using ih h.2 (by omega)

/-- A listing canonical from `lo` on is canonical from any smaller bound. -/
theorem Memory.wfFrom_mono {m : Memory} {lo lo' : Nat} (hl : lo' ≤ lo) (h : Memory.wfFrom lo m = true) :
    Memory.wfFrom lo' m = true := by
  cases m with
  | nil => rfl
  | cons c m =>
    simp only [Memory.wfFrom, Bool.and_eq_true, decide_eq_true_eq] at h ⊢
    exact ⟨⟨by omega, h.1.2⟩, h.2⟩

/-- Listing one word in front of a memory canonical above it. -/
theorem Memory.wfFrom_cell_append {m : Memory} {lo a : Nat} (v : Word) (hl : lo ≤ a)
    (h : Memory.wfFrom (a + 1) m = true) : Memory.wfFrom lo (Memory.cell a v ++ m) = true := by
  unfold Memory.cell
  split
  · exact Memory.wfFrom_mono (by omega) h
  · next hv => simp [Memory.wfFrom, hl, h, hv]

/-- Reading a memory with one word listed in front. -/
theorem Memory.read_cell_append (m : Memory) (a : Nat) (v : Word) (b : Nat)
    (h : b = a → v = 0#32 → Memory.read m b = 0#32) :
    Memory.read (Memory.cell a v ++ m) b = if b = a then v else Memory.read m b := by
  unfold Memory.cell
  by_cases hv : v = 0#32 <;> by_cases hb : b = a
  · subst hb; simp [Memory.unlisted, hv, h rfl hv]
  · simp [Memory.unlisted, hv, hb]
  · subst hb; simp [Memory.unlisted, hv, Memory.read]
  · have hab : ¬ a = b := fun e => hb e.symm
    simp [Memory.unlisted, hv, Memory.read, hab, hb]

theorem Memory.wfFrom_write {m : Memory} {lo : Nat} (h : Memory.wfFrom lo m = true) {a : Nat} (ha : lo ≤ a) (v : Word) :
    Memory.wfFrom lo (Memory.write m a v) = true := by
  induction m generalizing lo with
  | nil => simpa [Memory.write] using Memory.wfFrom_cell_append (m := []) v ha rfl
  | cons c m ih =>
    obtain ⟨k, w⟩ := c
    simp only [Memory.wfFrom, Bool.and_eq_true, decide_eq_true_eq] at h
    unfold Memory.write
    split
    · next hak => exact Memory.wfFrom_cell_append v ha (by simp [Memory.wfFrom, h.1.2, h.2]; omega)
    · split
      · next e => exact Memory.wfFrom_cell_append v ha (by rw [e]; exact h.2)
      · simp only [Memory.wfFrom, Bool.and_eq_true, decide_eq_true_eq]
        exact ⟨h.1, ih h.2 (by omega)⟩

/-- A write keeps the canonical form. -/
theorem Memory.wf_write {m : Memory} (h : m.wf = true) (a : Nat) (v : Word) : (m.write a v).wf = true :=
  Memory.wfFrom_write h (Nat.zero_le a) v

theorem Memory.read_write_from {m : Memory} {lo : Nat} (h : Memory.wfFrom lo m = true) (a : Nat) (v : Word) (b : Nat) :
    Memory.read (Memory.write m a v) b = if b = a then v else Memory.read m b := by
  induction m generalizing lo with
  | nil => simpa [Memory.write] using Memory.read_cell_append [] a v b (fun _ _ => rfl)
  | cons c m ih =>
    obtain ⟨k, w⟩ := c
    simp only [Memory.wfFrom, Bool.and_eq_true, decide_eq_true_eq] at h
    unfold Memory.write
    split
    · next hak =>
      refine Memory.read_cell_append _ a v b (fun e _ => Memory.read_of_lt (lo := k) ?_ (by omega))
      simp [Memory.wfFrom, h.1.2, h.2]
    · split
      · next e =>
        rw [Memory.read_cell_append m a v b (fun e' _ => Memory.read_of_lt h.2 (by omega))]
        by_cases hb : b = a
        · simp [hb]
        · have hkb : ¬ k = b := by omega
          simp [Memory.read, hb, hkb]
      · by_cases hkb : k = b
        · have hb : ¬ b = a := by omega
          simp [Memory.read, hkb, hb]
        · simpa [Memory.read, hkb] using ih h.2

/-- A read after a write gives the value written at its own address and what stood there at every other (R28, R34). -/
theorem Memory.read_write {m : Memory} (h : m.wf = true) (a : Nat) (v : Word) (b : Nat) :
    (m.write a v).read b = if b = a then v else m.read b :=
  Memory.read_write_from h a v b

/-- A write leaves every other word alone, in any listing. -/
theorem Memory.read_write_of_ne (m : Memory) {a b : Nat} (v : Word) (hb : b ≠ a) :
    (m.write a v).read b = m.read b := by
  induction m with
  | nil =>
    simpa [Memory.write, hb] using Memory.read_cell_append [] a v b (fun e => absurd e hb)
  | cons c m ih =>
    obtain ⟨k, w⟩ := c
    unfold Memory.write
    split
    · rw [Memory.read_cell_append _ a v b (fun e => absurd e hb)]; simp [hb]
    · split
      · next e =>
        have hkb : ¬ k = b := by omega
        rw [Memory.read_cell_append m a v b (fun e => absurd e hb)]
        simp [Memory.read, hb, hkb]
      · by_cases hkb : k = b
        · simp [Memory.read, hkb]
        · simpa [Memory.read, hkb] using ih

@[simp] theorem Memory.boundedBy_nil (cap : Nat) : Memory.boundedBy cap [] = true := rfl

theorem Memory.boundedBy_cell_append {m : Memory} {cap a : Nat} (v : Word) (ha : a < cap) (h : m.boundedBy cap = true) :
    (Memory.cell a v ++ m).boundedBy cap = true := by
  unfold Memory.cell
  split
  · exact h
  · simpa [Memory.boundedBy, ha] using h

/-- A write below the capacity keeps every listed address below it. -/
theorem Memory.boundedBy_write {m : Memory} {cap : Nat} (h : m.boundedBy cap = true) {a : Nat} (ha : a < cap) (v : Word) :
    (m.write a v).boundedBy cap = true := by
  induction m with
  | nil => simpa [Memory.write] using Memory.boundedBy_cell_append (m := []) v ha rfl
  | cons c m ih =>
    have hm : Memory.boundedBy cap m = true := by
      simp only [Memory.boundedBy, List.all_cons, Bool.and_eq_true] at h
      exact h.2
    unfold Memory.write
    split
    · exact Memory.boundedBy_cell_append v ha h
    · split
      · exact Memory.boundedBy_cell_append v ha hm
      · simp only [Memory.boundedBy, List.all_cons, Bool.and_eq_true] at h ⊢
        exact ⟨h.1, ih hm⟩

/-- A list of words placed at consecutive addresses is canonical. -/
theorem Memory.wfFrom_ofWords (ws : List Word) (a : Nat) : Memory.wfFrom a (Memory.ofWords a ws) = true := by
  induction ws generalizing a with
  | nil => rfl
  | cons w ws ih => exact Memory.wfFrom_cell_append w (Nat.le_refl a) (ih (a + 1))

/-- What a list of words placed from `a` on reads as: the word of the list, and 0 outside it. -/
theorem Memory.read_ofWords (ws : List Word) (a b : Nat) :
    Memory.read (Memory.ofWords a ws) b = if a ≤ b then ws.getD (b - a) 0#32 else 0#32 := by
  induction ws generalizing a with
  | nil => simp [Memory.ofWords]
  | cons w ws ih =>
    rw [Memory.ofWords, Memory.read_cell_append _ a w b
      (fun e _ => Memory.read_of_lt (Memory.wfFrom_ofWords ws (a + 1)) (by omega)), ih]
    by_cases hb : b = a
    · simp [hb]
    · by_cases hab : a ≤ b
      · have h1 : a + 1 ≤ b := by omega
        have h2 : b - a = (b - (a + 1)) + 1 := by omega
        rw [if_neg hb, if_pos h1, if_pos hab, h2, List.getD_cons_succ]
      · have h1 : ¬ a + 1 ≤ b := by omega
        simp [hb, hab, h1]

/-- A list of words placed from `a` on lists nothing at or past its end. -/
theorem Memory.boundedBy_ofWords (ws : List Word) (a cap : Nat) (h : a + ws.length ≤ cap) :
    (Memory.ofWords a ws).boundedBy cap = true := by
  induction ws generalizing a with
  | nil => rfl
  | cons w ws ih =>
    simp only [List.length_cons] at h
    exact Memory.boundedBy_cell_append w (by omega) (ih (a + 1) (by omega))

/-- Two canonical listings that read the same everywhere are the same list. -/
theorem Memory.ext_of_wfFrom {m n : Memory} {lo : Nat} (hm : Memory.wfFrom lo m = true) (hn : Memory.wfFrom lo n = true)
    (h : ∀ a, m.read a = n.read a) : m = n := by
  induction m generalizing n lo with
  | nil =>
    cases n with
    | nil => rfl
    | cons c n =>
      obtain ⟨k, v⟩ := c
      simp only [Memory.wfFrom, Bool.and_eq_true, decide_eq_true_eq] at hn
      exact absurd (by simpa [Memory.read] using (h k).symm) hn.1.2
  | cons c m ih =>
    obtain ⟨k, v⟩ := c
    have hm' := hm
    simp only [Memory.wfFrom, Bool.and_eq_true, decide_eq_true_eq] at hm
    cases n with
    | nil => exact absurd (by simpa [Memory.read] using h k) hm.1.2
    | cons d n =>
      obtain ⟨k', v'⟩ := d
      have hn' := hn
      simp only [Memory.wfFrom, Bool.and_eq_true, decide_eq_true_eq] at hn
      have hk : k = k' := by
        rcases Nat.lt_trichotomy k k' with hlt | he | hgt
        · have := h k
          rw [Memory.read_of_lt (m := (k', v') :: n) (lo := k') (by simp [Memory.wfFrom, hn.1.2, hn.2]) hlt] at this
          exact absurd (by simpa [Memory.read, Memory.unlisted] using this) hm.1.2
        · exact he
        · have := h k'
          rw [Memory.read_of_lt (m := (k, v) :: m) (lo := k) (by simp [Memory.wfFrom, hm.1.2, hm.2]) hgt] at this
          exact absurd (by simpa [Memory.read, Memory.unlisted] using this.symm) hn.1.2
      subst hk
      have hv : v = v' := by simpa [Memory.read] using h k
      subst hv
      congr 1
      refine ih hm.2 hn.2 fun a => ?_
      by_cases ha : k = a
      · rw [Memory.read_of_lt hm.2 (by omega), Memory.read_of_lt hn.2 (by omega)]
      · simpa [Memory.read, ha] using h a

/-- Canonical memories that read the same everywhere are equal data. -/
theorem Memory.ext_of_wf {m n : Memory} (hm : m.wf = true) (hn : n.wf = true) (h : ∀ a, m.read a = n.read a) : m = n :=
  Memory.ext_of_wfFrom hm hn h

/-- MemRead after MemWrite, on states (R28, R34). -/
theorem State.memRead_memWrite (s : State) (h : s.mem.wf = true) (a : Nat) (v : Word) (b : Nat) :
    (s.memWrite a v).memRead b = if b = a then v else s.memRead b :=
  Memory.read_write h a v b

theorem State.memRead_memWrite_of_ne (s : State) {a b : Nat} (v : Word) (hb : b ≠ a) :
    (s.memWrite a v).memRead b = s.memRead b :=
  Memory.read_write_of_ne s.mem v hb

theorem State.reset_mem_wf : State.reset.mem.wf = true := rfl

end Sys2Proof.Machine
end

