-- ==== Sys2Proof/Laws/Ops.lean ====
section
/-! SUPPORT. What each shared operation and each meaning can do, said once. -/

namespace Sys2Proof.Machine

/-- `address?` answers exactly the in-bounds integers, with their own value (R26). -/
theorem State.address?_eq_some_iff (s : State) (i : Int) (n : Nat) :
    s.address? i = some n ↔ i = n ∧ n < s.memcap := by
  cases i with
  | ofNat m =>
    simp only [State.address?, Int.ofNat_eq_natCast, Nat.cast_inj]
    by_cases h : m < s.memcap
    · simp only [h, if_true, Option.some.injEq]
      exact ⟨fun e => ⟨e, e ▸ h⟩, fun e => e.1⟩
    · simp only [h, if_false, reduceCtorEq, false_iff, not_and]
      exact fun e => e ▸ h
  | negSucc m => simp [State.address?]

theorem State.address?_eq_none_iff (s : State) (i : Int) : s.address? i = none ↔ ¬ (0 ≤ i ∧ i < s.memcap) := by
  cases i with
  | ofNat m => simp [State.address?]
  | negSucc m => simp [State.address?]

/-- `address?` of an in-bounds integer. -/
theorem State.address?_of_inBounds (s : State) {i : Int} (h : 0 ≤ i ∧ i < s.memcap) : s.address? i = some i.toNat :=
  (s.address?_eq_some_iff i i.toNat).2 (by omega)

/-- `address?` of an integer out of bounds. -/
theorem State.address?_of_not_inBounds (s : State) {i : Int} (h : ¬ (0 ≤ i ∧ i < s.memcap)) : s.address? i = none :=
  (s.address?_eq_none_iff i).2 h

/-- A fetch finds a word exactly at an in-bounds pc, the word stored there (R45). -/
theorem State.fetch_eq_some_iff (s : State) (w : Word) :
    s.fetch = some w ↔ (0 ≤ s.pc.toInt ∧ s.pc.toInt < s.memcap) ∧ w = s.memRead s.pc.toInt.toNat := by
  unfold State.fetch
  by_cases h : 0 ≤ s.pc.toInt ∧ s.pc.toInt < s.memcap
  · simp [s.address?_of_inBounds h, h, eq_comm]
  · simp only [s.address?_of_not_inBounds h, h, Option.map_none, reduceCtorEq, false_and]

/-- What a memory instruction's address check can find (R78, R79). -/
theorem State.address?_cases (s : State) (i : Int) :
    (∃ n : Nat, i = n ∧ n < s.memcap ∧ s.address? i = some n) ∨ (¬ (0 ≤ i ∧ i < s.memcap) ∧ s.address? i = none) := by
  by_cases h : 0 ≤ i ∧ i < s.memcap
  · exact .inl ⟨i.toNat, by omega, by omega, s.address?_of_inBounds h⟩
  · exact .inr ⟨h, s.address?_of_not_inBounds h⟩

/-- The state an instruction rule starts from, as one record update (R45). -/
theorem State.advance_eq (s : State) : s.advance = { s with pc := s.pc + 1#32, event := none } := by
  simp only [State.advance, wrap32_toInt_succ]

/-- lw in bounds is one register write (R78). -/
theorem exec_lw_inBounds {s : State} {a : Reg} {off : Int}
    (h : 0 ≤ effectiveAddress s a off ∧ effectiveAddress s a off < s.memcap) (b : Reg) :
    exec (.lw a b off) s = .next (s.setReg b (s.memRead (effectiveAddress s a off).toNat)) := by
  simp only [exec, execLw, s.address?_of_inBounds h]

/-- lw out of bounds is one event (R78, R89). -/
theorem exec_lw_outOfBounds {s : State} {a : Reg} {off : Int}
    (h : ¬ (0 ≤ effectiveAddress s a off ∧ effectiveAddress s a off < s.memcap)) (b : Reg) :
    exec (.lw a b off) s = .next (s.raise (.memOutOfBounds (effectiveAddress s a off))) := by
  simp only [exec, execLw, s.address?_of_not_inBounds h]

/-- sw in bounds is one memory write (R79). -/
theorem exec_sw_inBounds {s : State} {a : Reg} {off : Int}
    (h : 0 ≤ effectiveAddress s a off ∧ effectiveAddress s a off < s.memcap) (b : Reg) :
    exec (.sw a b off) s = .next (s.memWrite (effectiveAddress s a off).toNat (s.reg b)) := by
  simp only [exec, execSw, s.address?_of_inBounds h]

/-- sw out of bounds is one event (R79, R89). -/
theorem exec_sw_outOfBounds {s : State} {a : Reg} {off : Int}
    (h : ¬ (0 ≤ effectiveAddress s a off ∧ effectiveAddress s a off < s.memcap)) (b : Reg) :
    exec (.sw a b off) s = .next (s.raise (.memOutOfBounds (effectiveAddress s a off))) := by
  simp only [exec, execSw, s.address?_of_not_inBounds h]

/-- beq on equal registers moves the pc (R81). -/
theorem exec_beq_eq {s : State} {a b : Reg} (h : s.reg a = s.reg b) (off : Int) :
    exec (.beq a b off) s = .next (s.setPc (wrap32 (branchTarget s off))) := by
  simp [exec, execBeq, aluEq, h]

/-- beq on different registers does nothing (R81). -/
theorem exec_beq_ne {s : State} {a b : Reg} (h : s.reg a ≠ s.reg b) (off : Int) : exec (.beq a b off) s = .next s := by
  simp [exec, execBeq, aluEq, h]

/-- A word the decoder accepts executes as its instruction (R45). -/
theorem executeWord_of_decode {w : Word} {i : Instr} (h : decode w = .ok i) (s : State) : executeWord w s = exec i s := by
  rw [executeWord, h]

/-- A change of state a meaning can make to the state it starts from: a register write, a memory write in bounds, a new pc,
a link and a jump, an event, a halt, or nothing (R9, R11). -/
inductive Effect (s : State) : State → Prop where
  | nothing : Effect s s
  | register (r : Reg) (v : Word) : Effect s (s.setReg r v)
  | store (n : Nat) (v : Word) (h : n < s.memcap) : Effect s (s.memWrite n v)
  | branch (off : Int) : Effect s (s.setPc (wrap32 (branchTarget s off)))
  | link (r : Reg) (v t : Word) : Effect s ((s.setReg r v).setPc t)
  | outOfBounds (ea : Int) (h : ¬ (0 ≤ ea ∧ ea < s.memcap)) : Effect s (s.raise (.memOutOfBounds ea))
  | unknown (w : Word) : Effect s (s.raise (.unknownOpcode w))
  | halt : Effect s ((s.stop .halted).raise (.halt s.pc))

/-- Every meaning answers a next state, and that state is one of `Effect` (R9). -/
theorem exec_effect (i : Instr) (s : State) : ∃ t, exec i s = .next t ∧ Effect s t := by
  cases i with
  | add a b d => exact ⟨_, rfl, .register _ _⟩
  | nand a b d => exact ⟨_, rfl, .register _ _⟩
  | lw a b off =>
    rcases s.address?_cases (effectiveAddress s a off) with ⟨n, -, -, h⟩ | ⟨hb, h⟩
    · exact ⟨_, by simp only [exec, execLw, h], .register b (s.memRead n)⟩
    · exact ⟨_, by simp only [exec, execLw, h], .outOfBounds _ hb⟩
  | sw a b off =>
    rcases s.address?_cases (effectiveAddress s a off) with ⟨n, -, hn, h⟩ | ⟨hb, h⟩
    · exact ⟨_, by simp only [exec, execSw, h], .store n (s.reg b) hn⟩
    · exact ⟨_, by simp only [exec, execSw, h], .outOfBounds _ hb⟩
  | beq a b off =>
    by_cases h : aluEq (s.reg a) (s.reg b) = true
    · exact ⟨_, by simp only [exec, execBeq, if_pos h], .branch off⟩
    · exact ⟨_, by simp only [exec, execBeq, if_neg h], .nothing⟩
  | jalr a b => exact ⟨_, rfl, .link _ _ _⟩
  | halt => exact ⟨_, rfl, .halt⟩
  | noop => exact ⟨_, rfl, .nothing⟩

/-- Every fetched word answers a next state, and that state is one of `Effect` (R48). -/
theorem executeWord_effect (w : Word) (s : State) : ∃ t, executeWord w s = .next t ∧ Effect s t := by
  unfold executeWord
  split
  · exact exec_effect _ s
  · exact ⟨_, rfl, .unknown _⟩

/-- What a Running block's cycle does, in the order of R94. -/
theorem cycle_cases (s : State) :
    (s.pc.toInt < 0 ∧ cycle s = .next ((s.stop .negativePcFault).raise (.negativePc s.pc))) ∨
    ((s.memcap : Int) ≤ s.pc.toInt ∧ cycle s = .next ((s.stop .pcOutOfBounds).raise (.pcOutOfBounds s.pc))) ∨
    ((0 ≤ s.pc.toInt ∧ s.pc.toInt < s.memcap) ∧
      cycle s = executeWord (s.memRead s.pc.toInt.toNat) s.advance) := by
  unfold cycle
  by_cases h0 : s.pc.toInt < 0
  · exact .inl ⟨h0, if_pos h0⟩
  · by_cases h : s.pc.toInt < s.memcap
    · have hb : 0 ≤ s.pc.toInt ∧ s.pc.toInt < s.memcap := by omega
      refine .inr (.inr ⟨hb, ?_⟩)
      rw [if_neg h0, (s.fetch_eq_some_iff _).2 ⟨hb, rfl⟩]
    · refine .inr (.inl ⟨by omega, ?_⟩)
      have hn : s.fetch = none := by
        simp [State.fetch, s.address?_of_not_inBounds (i := s.pc.toInt) (by omega)]
      rw [if_neg h0, hn]

@[simp] theorem step_running {s : State} (h : s.status = .running) : step s = cycle s := by simp [step, h]

/-- A step is answered only by a Running block, as its cycle (R98). -/
theorem step_eq_next {s t : State} (h : step s = .next t) : s.status = .running ∧ cycle s = .next t := by
  unfold step at h
  split at h <;> simp_all

/-- The word that `withFetchWord` places is what the very next step runs. -/
theorem step_placeNext (s : State) (w : Word) (hc : 1 ≤ s.memcap) (hm : s.mem.wf = true) :
    step (s.placeNext w) = executeWord w (s.placeNext w).advance := by
  rcases s.address?_cases s.pc.toInt with ⟨n, hi, hn, h⟩ | ⟨-, h⟩
  · have hp : s.placeNext w = (s.stop .running).memWrite n w := by simp [State.placeNext, h]
    have hf : (s.placeNext w).fetch = some w := by
      rw [State.fetch_eq_some_iff, hp]
      simp [State.memRead_memWrite _ (show (s.stop .running).mem.wf = true from hm), hi, hn]
    rcases cycle_cases (s.placeNext w) with ⟨h1, -⟩ | ⟨h1, -⟩ | ⟨h1, h2⟩
    · rw [hp] at h1; simp [hi] at h1; omega
    · rw [hp] at h1; simp [hi] at h1; omega
    · rw [step_running (by rw [hp]; rfl), h2, ((State.fetch_eq_some_iff _ _).1 hf).2.symm]
  · have hp : s.placeNext w = ((s.stop .running).setPc 0#32).memWrite 0 w := by simp [State.placeNext, h]
    have hf : (s.placeNext w).fetch = some w := by
      rw [State.fetch_eq_some_iff, hp]
      simp [State.memRead_memWrite _ (show ((s.stop .running).setPc 0#32).mem.wf = true from hm)]
      omega
    rcases cycle_cases (s.placeNext w) with ⟨h1, -⟩ | ⟨h1, -⟩ | ⟨h1, h2⟩
    · rw [hp] at h1; simp at h1
    · rw [hp] at h1; simp at h1; omega
    · rw [step_running (by rw [hp]; rfl), h2, ((State.fetch_eq_some_iff _ _).1 hf).2.symm]

end Sys2Proof.Machine
end

