-- ==== Sys2Proof/Laws/PerInstr.lean ====
section
/-! SUPPORT. One law per instruction as syntax: the word the encoder gives has 0 in bits 31:25 (R42). -/

namespace Sys2Proof.Laws.EncodedBelow

/-- Every encoded instruction word is a non-negative value below 2^25 (R42). -/
def Statement (i : Instr) : Prop := ∀ w, encode i = some w → w.toNat < 2 ^ 25

/-- The opcode and the two register fields fill bits 24 to 16. -/
theorem packHead_lt {op : Nat} (h : op < 8) (a b : Reg) : (packHead op a b).toNat < 2 ^ 25 := by
  unfold packHead
  simp only [BitVec.toNat_or, BitVec.toNat_shiftLeft, BitVec.toNat_ofNat, Nat.shiftLeft_eq]
  refine Nat.or_lt_two_pow (Nat.or_lt_two_pow ?_ ?_) ?_ <;> omega

theorem packI_lt {op : Nat} (h : op < 8) {a b : Reg} {off : Int} {w : Word} (hw : packI op a b off = some w) :
    w.toNat < 2 ^ 25 := by
  unfold packI at hw
  obtain ⟨p, -, rfl⟩ := Option.map_eq_some_iff.1 hw
  simp only [BitVec.toNat_or, BitVec.toNat_setWidth]
  refine Nat.or_lt_two_pow (packHead_lt h a b) ?_
  have := p.isLt
  omega

theorem packR_lt {op : Nat} (h : op < 8) (a b d : Reg) : (packR op a b d).toNat < 2 ^ 25 := by
  unfold packR
  simp only [BitVec.toNat_or, BitVec.toNat_ofNat]
  refine Nat.or_lt_two_pow (packHead_lt h a b) ?_
  omega

theorem add (a b d : Reg) : Statement (.add a b d) := fun _ h => Option.some.inj h ▸ packR_lt (by omega) a b d
theorem nand (a b d : Reg) : Statement (.nand a b d) := fun _ h => Option.some.inj h ▸ packR_lt (by omega) a b d
theorem lw (a b : Reg) (off : Int) : Statement (.lw a b off) := fun _ h => packI_lt (by omega) h
theorem sw (a b : Reg) (off : Int) : Statement (.sw a b off) := fun _ h => packI_lt (by omega) h
theorem beq (a b : Reg) (off : Int) : Statement (.beq a b off) := fun _ h => packI_lt (by omega) h
theorem jalr (a b : Reg) : Statement (.jalr a b) := fun _ h => Option.some.inj h ▸ packHead_lt (by omega) a b
theorem halt : Statement .halt := fun _ h => Option.some.inj h ▸ by decide
theorem noop : Statement .noop := fun _ h => Option.some.inj h ▸ by decide

end Sys2Proof.Laws.EncodedBelow
end

