-- ==== Sys2Proof/Tests/Slice0.lean ====
section
/-! SUPPORT. Small tests with results taken from spec/95_test_vectors.md and the rules' own examples, a smoke test of
WellFormed, and for each statement with hypotheses a witness that meets them. -/

namespace Sys2Proof.Tests

open Sys2Proof.Machine Sys2Proof.Claims

/-- A block with MEMCAP = 100, as the vectors of 95_test_vectors.md state it. -/
def base : State := { State.reset with memcap := 100 }

/-- `base` at a pc, with some registers set and some words stored. -/
def block (pc : Word) (regs : List (Reg × Word)) (mem : List (Nat × Word)) : State :=
  mem.foldl (fun s c => s.memWrite c.1 c.2) (regs.foldl (fun s c => s.setReg c.1 c.2) (base.setPc pc))

/-- The next state of an outcome, if it is one. -/
def nextOf : Host.Outcome State Fault Refusal → Option State
  | .next t => some t
  | .fault _ => none
  | .refused _ => none

/-- The fault of an outcome, if it is one. -/
def faultOf : Host.Outcome State Fault Refusal → Option Fault
  | .next _ => none
  | .fault f => some f
  | .refused _ => none

/-! WellFormed: one ill-formed term for each check. -/

theorem test_lw_offset_too_large_is_ill_formed : (Instr.lw 0 1 32768).wellFormed = false := by decide
theorem test_sw_offset_too_small_is_ill_formed : (Instr.sw 0 1 (-32769)).wellFormed = false := by decide
theorem test_beq_offset_too_large_is_ill_formed : (Instr.beq 0 0 32768).wellFormed = false := by decide
theorem test_extreme_offsets_are_well_formed :
    (Instr.lw 0 1 32767).wellFormed = true ∧ (Instr.sw 0 1 (-32768)).wellFormed = true ∧
    (Instr.beq 0 0 (-32768)).wellFormed = true := by decide
/-- An ill-formed term has no encoding (R54). -/
theorem test_ill_formed_is_not_encoded : encode (.lw 0 1 32768) = none ∧ encode (.beq 0 0 (-32769)) = none := by decide

/-! Decoding: each constructor's word written out bit by bit from R38 to R41, and the vectors of section 2.2. -/

theorem test_decode_add : decode 0b0000000_000_001_010_0000000000000_011#32 = .ok (.add 1 2 3) := by decide
theorem test_decode_add_is_000A0003 : decode 0x000A0003#32 = .ok (.add 1 2 3) := by decide
theorem test_decode_zero_word : decode 0x00000000#32 = .ok (.add 0 0 0) := by decide
theorem test_decode_nand : decode 0b0000000_001_011_011_0000000000000_010#32 = .ok (.nand 3 3 2) := by decide
theorem test_decode_nand_unused_bits : decode 0x0040FFFB#32 = .ok (.nand 0 0 3) := by decide
theorem test_decode_lw : decode 0b0000000_010_000_010_1111111111111111#32 = .ok (.lw 0 2 (-1)) := by decide
theorem test_decode_sw : decode 0x00FF8000#32 = .ok (.sw 7 7 (-32768)) := by decide
theorem test_decode_beq : decode 0x0100FFFD#32 = .ok (.beq 0 0 (-3)) := by decide
theorem test_decode_jalr : decode 0x014F0000#32 = .ok (.jalr 1 7) := by decide
theorem test_decode_halt_unused_bits : decode 0x0180FFFF#32 = .ok .halt := by decide
theorem test_decode_noop_unused_bits : decode 0x01C0ABCD#32 = .ok .noop := by decide
theorem test_decode_unknown_lowest : decode 0x02000000#32 = .error (.unknownOpcode 0x02000000#32) := by decide
theorem test_decode_unknown_all_ones : decode 0xFFFFFFFF#32 = .error (.unknownOpcode 0xFFFFFFFF#32) := by decide
/-- The field columns of the vector 0x01C0ABCD (section 2.2): A = 0, B = 0, D = 5, off = -21555. -/
theorem test_fields_of_01C0ABCD :
    fieldA 0x01C0ABCD#32 = 0 ∧ fieldB 0x01C0ABCD#32 = 0 ∧ fieldD 0x01C0ABCD#32 = 5 ∧
    fieldOff 0x01C0ABCD#32 = -21555 := by decide
theorem test_table_word : decodeTableWord 32 0x01530000 = some (.jalr 2 3) := by decide

/-! Packing: section 2.3. -/

theorem test_encode_add : encode (.add 0 1 2) = some 0x00010002#32 := by decide
theorem test_encode_nand : encode (.nand 1 2 3) = some 0x004A0003#32 := by decide
theorem test_encode_lw : encode (.lw 0 2 (-1)) = some 0x0082FFFF#32 := by decide
theorem test_encode_sw : encode (.sw 0 1 99) = some 0x00C10063#32 := by decide
theorem test_encode_beq : encode (.beq 1 2 5) = some 0x010A0005#32 := by decide
theorem test_encode_jalr : encode (.jalr 4 4) = some 0x01640000#32 := by decide
theorem test_encode_halt_noop : encode .halt = some 0x01800000#32 ∧ encode .noop = some 0x01C00000#32 := by decide

/-! The codec: section 2.1. -/

theorem test_codec_encode :
    encodeSigned (-1) 16 = some 0xFFFF#16 ∧ encodeSigned (-32768) 16 = some 0x8000#16 ∧
    encodeSigned (-200) 32 = some 0xFFFFFF38#32 ∧ encodeSigned (-4) 3 = some 4#3 := by decide
theorem test_codec_refuses :
    encodeSigned 32768 16 = none ∧ encodeSigned (-32769) 16 = none ∧ encodeSigned 4 3 = none := by decide
theorem test_codec_decode :
    decodeSigned 0x8000#16 = -32768 ∧ decodeSigned 0x7FFF#16 = 32767 ∧ decodeSigned 7#3 = -1 := by decide

/-! Steps: sections 2.4 to 2.8, one step each. -/

/-- add 2 3 4 at x2 = 2147483647, x3 = 1 (2.4): the sum wraps. -/
theorem test_step_add_wraps :
    (nextOf (step (block 0 [(2, 2147483647), (3, 1)] [(0, 0x00130004)]))).map (fun t => ((t.reg 4).toInt, t.pc)) =
      some (-2147483648, 1) := by decide
/-- add 1 2 0 (2.4): x0 is writable. -/
theorem test_step_add_writes_x0 :
    (nextOf (step (block 0 [(1, 4), (2, 5)] [(0, 0x000A0000)]))).map (fun t => t.reg 0) = some 9#32 := by decide
/-- nand 1 2 1 at x1 = x2 = 6 (2.4): read before write. -/
theorem test_exec_nand_reads_first :
    (nextOf (exec (.nand 1 2 1) (block 0 [(1, 6), (2, 6)] []))).map (fun t => (t.reg 1).toInt) = some (-7) := by decide
/-- lw 1 1 0 at x1 = 3, mem[3] = 42 (2.5): the address uses the old x1. -/
theorem test_step_lw_base_is_destination :
    (nextOf (step (block 0 [(1, 3)] [(0, 0x00890000), (3, 42)]))).map (fun t => (t.reg 1, t.event)) =
      some (42#32, none) := by decide
/-- lw 1 2 1 at x1 = 2147483647 (2.5): the event carries the exact sum. -/
theorem test_exec_lw_reports_exact_sum :
    (nextOf (exec (.lw 1 2 1) (block 0 [(1, 2147483647), (2, 8)] []))).map (fun t => (t.reg 2, t.event)) =
      some (8#32, some (.memOutOfBounds 2147483648)) := by decide
/-- sw 0 1 99 (2.5): the last word of memory. -/
theorem test_step_sw_last_word :
    (nextOf (step (block 0 [(1, 1)] [(0, 0x00C10063)]))).map (fun t => (t.memRead 99, t.event)) =
      some (1#32, none) := by decide
/-- sw 5 1 0 at x5 = -200 (2.5): memory unchanged, reported. -/
theorem test_exec_sw_out_of_bounds :
    (nextOf (exec (.sw 5 1 0) (block 0 [(5, -200)] [(3, 7)]))).map (fun t => (t.mem, t.event)) =
      some ([(3, 7#32)], some (.memOutOfBounds (-200))) := by decide
/-- beq 0 0 -3 at 4 (2.6). -/
theorem test_step_beq_taken :
    (nextOf (step (block 4 [] [(4, 0x0100FFFD)]))).map (fun t => t.pc) = some 2#32 := by decide
/-- beq 1 2 5 at 10 with x1 = 3, x2 = 4 (2.6). -/
theorem test_step_beq_not_taken :
    (nextOf (step (block 10 [(1, 3), (2, 4)] [(10, 0x010A0005)]))).map (fun t => t.pc) = some 11#32 := by decide
/-- jalr 1 7 at 2 with x1 = 5 (2.6). -/
theorem test_step_jalr :
    (nextOf (step (block 2 [(1, 5)] [(2, 0x014F0000)]))).map (fun t => (t.reg 7, t.pc)) = some (3#32, 5#32) := by decide
/-- jalr 4 4 at 0 with x4 = 77 (2.6): the link is written first. -/
theorem test_step_jalr_same_register :
    (nextOf (step (block 0 [(4, 77)] [(0, 0x01640000)]))).map (fun t => (t.reg 4, t.pc)) = some (1#32, 1#32) := by decide
/-- halt at 99 (2.7): pc = 100 with status Halted, not PcOutOfBounds. -/
theorem test_step_halt_at_last_word :
    (nextOf (step (block 99 [] [(99, 0x01800000)]))).map (fun t => (t.pc, t.status, t.event)) =
      some (100#32, .halted, some (.halt 100#32)) := by decide
/-- noop at 3 (2.7). -/
theorem test_step_noop : nextOf (step (block 3 [] [(3, 0x01C00000)])) = some (block 4 [] [(3, 0x01C00000)]) := by decide
/-- The word -1 at 1 (2.7). -/
theorem test_step_unknown :
    (nextOf (step (block 1 [] [(1, 0xFFFFFFFF)]))).map (fun t => (t.pc, t.status, t.event)) =
      some (2#32, .running, some (.unknownOpcode 0xFFFFFFFF#32)) := by decide
/-- pc = 100 at MEMCAP = 100 (2.8). -/
theorem test_step_pc_out_of_bounds :
    (nextOf (step (block 100 [] []))).map (fun t => (t.pc, t.status, t.event)) =
      some (100#32, .pcOutOfBounds, some (.pcOutOfBounds 100#32)) := by decide
/-- pc = -1 (2.8). -/
theorem test_step_negative_pc :
    (nextOf (step (block (-1) [] []))).map (fun t => (t.pc, t.status)) = some (-1, .negativePcFault) := by decide
/-- status Halted (2.8): no step. -/
theorem test_no_step_when_halted : faultOf (step (base.stop .halted)) = some .halted := by decide
/-- The empty machine executes add 0 0 0 (2.8), also at the reset state, whose capacity is not fixed. -/
theorem test_first_step_from_reset : (nextOf (step State.reset)).map (fun t => (t.pc, t.event)) = some (1#32, none) := by decide
/-- A table word placed with withFetchWord is the first instruction after reset. -/
theorem test_with_fetch_word :
    (nextOf (step (State.reset.withFetchWord 32 0x01640000))).map (fun t => (t.reg 4, t.pc)) = some (1#32, 1#32) := by decide
/-- A fetch sees a store (R36): the word sw 0 1 1 stored at 1 from address 0 is what step fetches at 1. -/
theorem test_fetch_sees_store :
    (nextOf (step (block 0 [(1, 0x01800000)] [(0, 0x00C10001)]))).bind (fun t => t.fetch) = some 0x01800000#32 := by decide

/-! Load, text and observation. -/

/-- Loading 3 words at MEMCAP = 2 (R102, R103): the third is discarded with a warning. -/
theorem test_load_overflow :
    (resetAndLoad 2 [7, 0, 9]).map (fun r => (r.state.mem, r.state.numLoaded, r.report)) =
      some ([(0, 7#32)], 2, some .memoryOverflow) := by decide
theorem test_load_refuses_zero_capacity : resetAndLoad 0 [] = none := by decide
/-- `.fill -1` is persisted as `-1` (2.3). -/
theorem test_render_image : renderImage [0xFFFFFFFF, 65538] = "-1\n65538\n".toList := by decide
/-- A line that does not parse takes no address (R101). -/
theorem test_read_image : readImage "5\nx1\n-200\n".toList = [5#32, 0xFFFFFF38#32] := by decide
/-- The snapshot shows the loaded words only (R96). -/
theorem test_snapshot_words :
    (resetAndLoad 100 [5, 6]).map (fun r => r.state.snapshot.words) = some [(0, 5#32), (1, 6#32)] := by decide
/-- One observed step of program P1 (Part 3): add raises nothing and leaves pc = 1. -/
theorem test_observe_one_step :
    (resetAndLoad 100 [65538, 25165824]).map (fun r => (observe 1 r.state).map (fun o => (o.event, o.snapshot.pc))) =
      some [(none, 1#32)] := by decide

/-! The assembler: sections 2.3 and Part 1. -/

/-- P1 (L1-10). -/
theorem test_assemble_p1 : assemble "add 0 1 2\nhalt\n".toList = .ok [65538#32, 25165824#32] := by decide
/-- A label as a beq offset (L1-4), a numeric literal and `.fill` of a label. -/
theorem test_assemble_labels :
    assemble "lw 0 1 2\n\nstart beq 0 0 start\n a .fill start\n".toList = .ok [0x00810002#32, 0x0100FFFF#32, 1#32] := by
  decide
theorem test_assemble_duplicate_label : assemble "a noop\na halt".toList = .error .duplicateLabel := by decide
theorem test_assemble_offset_range : assemble "lw 0 1 32768".toList = .error .offsetOutOfRange := by decide
theorem test_assemble_invalid_opcode :
    assemble "ADD 0 1 2".toList = .error .invalidOpcode ∧ assemble "loop".toList = .error .invalidOpcode := by decide
theorem test_assemble_bad_register :
    assemble "add 0 1 8".toList = .error .badRegisterOperand ∧
    assemble "add r0 r1 r2".toList = .error .badRegisterOperand := by decide
theorem test_assemble_operand_count :
    assemble "add 0 1".toList = .error .operandCount ∧ assemble "halt now".toList = .error .operandCount := by decide
theorem test_assemble_undefined :
    assemble ".fill 2147483648".toList = .error .undefinedSymbolOrBadLiteral ∧
    assemble "lw 0 1 nowhere".toList = .error .undefinedSymbolOrBadLiteral := by decide
/-- A numeral may be a label, and is looked up first (D25). -/
theorem test_assemble_numeric_label :
    assemble "5 noop\nlw 0 1 5".toList = .ok [0x01C00000#32, 0x00810000#32] := by decide

/-! Witnesses: for each statement with hypotheses, values that meet them, with a boundary value for each clause. -/

theorem witness_DecodeEncodeAgree :
    (Instr.lw 7 0 32767).wellFormed = true ∧ (Instr.beq 0 7 (-32768)).wellFormed = true := by decide
theorem witness_EncodeOfDecodedClearsUnusedBits :
    decode 0x0040FFFB#32 = .ok (.nand 0 0 3) ∧ 0x0040FFFB#32 &&& usedBits (.nand 0 0 3) = 0x00400003#32 := by decide
theorem witness_UnusedBitsDoNotMatter :
    decode 0x01C0ABCD#32 = .ok .noop ∧ 0x01C0ABCD#32 &&& usedBits .noop = 0x01C00000#32 &&& usedBits .noop := by decide
theorem witness_OpcodeValueIsInRange :
    BitVec.extractLsb' 25 7 0x01FFFFFF#32 = 0#7 ∧ BitVec.extractLsb' 25 7 0x02000000#32 ≠ 0#7 ∧
    BitVec.extractLsb' 25 7 0xFE000000#32 ≠ 0#7 := by decide
theorem witness_DecoderIsTotal :
    (∃ i, decode 0x01FFFFFF#32 = .ok i) ∧ BitVec.extractLsb' 25 7 0x02000000#32 ≠ 0#7 :=
  ⟨⟨.noop, by decide⟩, by decide⟩
theorem witness_PackingPlacesEachField : OffsetInRange (-32768) ∧ OffsetInRange 32767 := by decide
theorem witness_CodecRoundTrip : Representable (-1) 1 ∧ Representable 0 1 ∧ ¬ Representable 1 1 := by decide
theorem witness_CodecEncodeValue :
    Representable (-32768) 16 ∧ Representable 32767 16 ∧ ¬ Representable 32768 16 := by decide
theorem witness_CodecDecodeValue : decodeSigned 1#1 = -1 ∧ decodeSigned 0#1 = 0 := by decide
theorem witness_encoding_clauses :
    BitVec.extractLsb' 22 10 0x003FFFFF#32 = 0#10 ∧ BitVec.extractLsb' 22 10 0x00400000#32 = 1#10 ∧
    BitVec.extractLsb' 22 10 0x00BFFFFF#32 = 2#10 ∧ BitVec.extractLsb' 22 10 0x00FF8000#32 = 3#10 ∧
    BitVec.extractLsb' 22 10 0x0100FFFD#32 = 4#10 ∧ BitVec.extractLsb' 22 10 0x014F0000#32 = 5#10 ∧
    BitVec.extractLsb' 22 10 0x0180FFFF#32 = 6#10 ∧ BitVec.extractLsb' 22 10 0x01FFFFFF#32 = 7#10 := by decide
theorem witness_LwLoadsOrReports :
    InBounds base (effectiveAddress base 0 0) ∧ InBounds base (effectiveAddress base 0 99) ∧
    ¬ InBounds base (effectiveAddress base 0 100) ∧ ¬ InBounds base (effectiveAddress base 0 (-1)) := by decide
theorem witness_SwStoresOrReports :
    (block 0 [] [(3, 7)]).mem.wf = true ∧ InBounds base (effectiveAddress base 0 99) ∧
    ¬ InBounds base (effectiveAddress base 0 (-1)) := by decide
theorem witness_EffectiveAddressIsExact :
    (block 0 [(1, 2147483647)] []).CapOk ∧ OffsetInRange 32767 ∧
    ¬ InBounds (block 0 [(1, 2147483647)] []) (effectiveAddress (block 0 [(1, 2147483647)] []) 1 32767) := by decide
theorem witness_BeqBranchesExactly :
    (block 1 [(1, 3)] []).CapOk ∧ OffsetInRange (-32768) ∧ 1 ≤ (block 1 [(1, 3)] []).pc.toInt ∧
    (block 1 [(1, 3)] []).pc.toInt ≤ (block 1 [(1, 3)] []).memcap ∧
    (block 100 [(1, 3)] []).pc.toInt ≤ (block 100 [(1, 3)] []).memcap ∧
    (block 1 [(1, 3)] []).reg 1 = (block 1 [(1, 3)] []).reg 1 ∧
    (block 1 [(1, 3)] []).reg 1 ≠ (block 1 [(1, 3)] []).reg 2 := by decide
theorem witness_StepRunsDecodedInstruction :
    (block 99 [] []).status = .running ∧ InBounds (block 99 [] []) (block 99 [] []).pc.toInt ∧ (block 99 [] []).CapOk ∧
    decode (fetched (block 99 [] [])) = .ok (.add 0 0 0) := by decide
theorem witness_UnknownOpcodeIsReported :
    (block 99 [] [(99, 0x02000000)]).CapOk ∧ (block 99 [] [(99, 0x02000000)]).status = .running ∧
    InBounds (block 99 [] [(99, 0x02000000)]) (block 99 [] [(99, 0x02000000)]).pc.toInt ∧
    (fetched (block 99 [] [(99, 0x02000000)])).extractLsb' 25 7 ≠ 0#7 := by decide
theorem witness_OutOfBoundsAccessIsReported :
    (block 0 [] [(0, 0x00820064)]).CapOk ∧ (block 0 [] [(0, 0x00820064)]).status = .running ∧
    InBounds (block 0 [] [(0, 0x00820064)]) (block 0 [] [(0, 0x00820064)]).pc.toInt ∧
    decode (fetched (block 0 [] [(0, 0x00820064)])) = .ok (.lw 0 2 100) ∧
    decode (fetched (block 0 [] [(0, 0x00C10064)])) = .ok (.sw 0 1 100) ∧
    ¬ InBounds (block 0 [] [(0, 0x00820064)]) (effectiveAddress (block 0 [] [(0, 0x00820064)]) 0 100) ∧
    ¬ InBounds (block 0 [] [(0, 0x00C10064)]) (effectiveAddress (block 0 [] [(0, 0x00C10064)]) 0 100) := by decide
theorem witness_FetchPastCapacityEndsTheRun :
    (block 100 [] []).status = .running ∧ ((block 100 [] []).memcap : Int) ≤ (block 100 [] []).pc.toInt := by decide
theorem witness_FetchAtNegativePcIsAFault :
    (block (-1) [] []).status = .running ∧ (block (-1) [] []).pc.toInt < 0 := by decide
theorem witness_TerminalStatusHasNoStep :
    (base.stop .halted).status = .halted ∧ (base.stop .pcOutOfBounds).status = .pcOutOfBounds ∧
    (base.stop .negativePcFault).status = .negativePcFault := by decide
theorem witness_PcAfterEachStep :
    (block 99 [] []).CapOk ∧ (block 99 [] []).status = .running ∧ InBounds (block 99 [] []) (block 99 [] []).pc.toInt ∧
    decode (fetched (block 0 [] [(0, 0x01800000)])) = .ok .halt ∧
    ((block 100 [] []).memcap : Int) ≤ (block 100 [] []).pc.toInt ∧ (block (-1) [] []).pc.toInt < 0 := by decide
/-- A step exists, for the statements about every step: their premise `step s = next t`. -/
theorem witness_step_has_next : ∃ t, step base = .next t := ⟨base.advance, by rfl⟩
/-- Each side of the alternative: an add that changes x3 and a sw that changes the last word. -/
theorem witness_StepWritesAtMostOnePlace :
    (nextOf (step (block 0 [(1, 5)] [(0, 0x000A0003)]))).map (fun t => (t.reg 3, t.memRead 99)) = some (5#32, 0#32) ∧
    registerWritten (fetched (block 0 [(1, 5)] [(0, 0x000A0003)])) (block 0 [(1, 5)] [(0, 0x000A0003)]) = some 3 ∧
    decode (fetched (block 0 [(1, 1)] [(0, 0x00C10063)])) = .ok (.sw 0 1 99) ∧
    effectiveAddress (block 0 [(1, 1)] [(0, 0x00C10063)]) 0 99 = 99 := by decide
theorem witness_OnlyTheNamedRegisterIsWritten :
    (nextOf (executeWord 0x000A0003#32 (block 0 [(1, 5)] []))).map (fun t => decide (t.reg 3 ≠ 0#32)) = some true ∧
    registerWritten 0x000A0003#32 (block 0 [(1, 5)] []) = some 3 := by decide
theorem witness_UnreadRegistersDoNotMatter :
    (4 : Reg) ∉ registersRead 0x000A0003#32 ∧ registerWritten 0x000A0003#32 base ≠ some 4 := by decide
theorem witness_OnlySwChangesMemory :
    (nextOf (step (block 0 [(1, 1)] [(0, 0x00C10063)]))).map (fun t => decide (t.memRead 99 ≠ 0#32)) = some true := by decide
theorem witness_LoadAfterStore :
    base.mem.wf = true ∧ InBounds (block 0 [(1, 90)] []) (effectiveAddress (block 0 [(1, 90)] []) 1 9) ∧
    effectiveAddress (block 0 [(1, 90)] []) 0 99 = effectiveAddress (block 0 [(1, 90)] []) 1 9 := by decide
theorem witness_StoredWordIsFetchedNext :
    (block 98 [] [(98, 0x00C10063)]).CapOk ∧ (block 98 [] [(98, 0x00C10063)]).mem.wf = true ∧
    (block 98 [] [(98, 0x00C10063)]).status = .running ∧
    InBounds (block 98 [] [(98, 0x00C10063)]) (block 98 [] [(98, 0x00C10063)]).pc.toInt ∧
    decode (fetched (block 98 [] [(98, 0x00C10063)])) = .ok (.sw 0 1 99) ∧
    InBounds (block 98 [] [(98, 0x00C10063)]) (effectiveAddress (block 98 [] [(98, 0x00C10063)]) 0 99) ∧
    effectiveAddress (block 98 [] [(98, 0x00C10063)]) 0 99 = (block 98 [] [(98, 0x00C10063)]).pc.toInt + 1 := by decide
theorem witness_EveryStepKeepsTheInvariant : (block 4 [(1, 5)] [(4, 0x0100FFFD)]).Inv := by decide
theorem witness_DatapathRefinesStep : base.status = .running := by decide
theorem witness_LoadGivesTheInitialState :
    (1 ≤ 1 ∧ 1 ≤ 2 ^ 31 - 2 ^ 15) ∧ (0 < min [7#32, 8#32].length 1) ∧ (min [7#32, 8#32].length 1 ≤ 1) := by decide
theorem witness_LoadRefusesCapacityOutOfBound :
    ¬ (1 ≤ 0 ∧ 0 ≤ 2 ^ 31 - 2 ^ 15) ∧ ¬ (1 ≤ 2 ^ 31 - 2 ^ 15 + 1 ∧ 2 ^ 31 - 2 ^ 15 + 1 ≤ 2 ^ 31 - 2 ^ 15) := by decide
theorem witness_LoadedStateHoldsTheInvariant : (resetAndLoad 2147450880 [7]).isSome = true := by decide
theorem witness_StoreAboveLoadedIsNotShown :
    InBounds base (effectiveAddress base 0 0) ∧ (base.numLoaded : Int) ≤ effectiveAddress base 0 0 := by decide
/-- A run that ends after one step, one that has already ended, and one whose fuel is too short (R107). -/
theorem witness_EndOfRunIsFinal :
    (finalState? 1 (block 0 [] [(0, 0x01800000)])).map (fun f => f.status) = some .halted ∧
    finalState? 0 (base.stop .halted) = some (base.stop .halted) ∧ (base.stop .halted).status ≠ .running ∧
    finalState? 0 base = none := by decide
theorem witness_EndOfRunIsFinal_reaches :
    Reaches 1 (block 0 [] [(0, 0x01800000)])
      (((block 0 [] [(0, 0x01800000)]).advance.stop .halted).raise (.halt 1#32)) := ⟨_, by rfl, by rfl⟩
theorem witness_OneWordPerNonBlankLine :
    assemble "noop\n".toList = .ok [0x01C00000#32] ∧ (programLines "noop\n".toList)[0]? = some ["noop".toList] := by decide
theorem witness_DuplicateLabelAborts :
    (programLines "a noop\na halt".toList)[0]? = some ["a".toList, "noop".toList] ∧
    (programLines "a noop\na halt".toList)[1]? = some ["a".toList, "halt".toList] ∧
    leadLabel? ["a".toList, "noop".toList] = some "a".toList ∧
    leadLabel? ["a".toList, "halt".toList] = some "a".toList := by decide
theorem witness_LabelAddressIsLineIndex :
    pass1 0 [] (programLines "noop\n\nb halt".toList) = .ok [("b".toList, 1)] ∧
    (programLines "noop\n\nb halt".toList)[1]? = some ["b".toList, "halt".toList] := by decide
theorem witness_BeqToLabelLandsOnLabel :
    List.lookup "a".toList [("a".toList, 2)] = some 2 ∧
    resolveOffset [("a".toList, 2)] 99 true "a".toList = .ok (-98) ∧ (block 100 [] []).CapOk ∧
    99 < (block 100 [] []).memcap ∧ (block 100 [] []).pc.toInt = 99 + 1 := by decide
theorem witness_OffsetOperandResolution :
    List.lookup "a".toList [("a".toList, 40000)] = some 40000 ∧ List.lookup "7".toList ([] : Symbols) = none ∧
    parseLiteral? "-32769".toList = some (-32769) ∧ parseLiteral? "x".toList = none := by decide
/-- The table's `lw 0 2 -1` (2.3), behind a label. -/
theorem witness_AssembledInstructionDecodesBack :
    LineOf (mnemonicOf (.lw 0 2 (-1))) ["0".toList, "2".toList, "-1".toList]
      ["x".toList, "lw".toList, "0".toList, "2".toList, "-1".toList] ∧
    OperandsSpell [] 0 ["0".toList, "2".toList, "-1".toList] (.lw 0 2 (-1)) ∧
    assembleLine [] 0 ["x".toList, "lw".toList, "0".toList, "2".toList, "-1".toList] = .ok 0x0082FFFF#32 :=
  ⟨.inr ⟨"x".toList, by decide, rfl⟩,
    ⟨_, _, _, rfl, by decide, by decide, .inr ⟨by decide, by decide⟩, by decide, by decide⟩, by decide⟩
/-- The offset of a beq to a label: P2's `beq 0 0 start` at p = 4 (L1-4). -/
theorem witness_AssembledInstructionDecodesBack_label :
    OperandsSpell [("start".toList, 2)] 4 ["0".toList, "0".toList, "start".toList] (.beq 0 0 (-3)) ∧
    assembleLine [("start".toList, 2)] 4 ["beq".toList, "0".toList, "0".toList, "start".toList] = .ok 0x0100FFFD#32 :=
  ⟨⟨_, _, _, rfl, by decide, by decide, .inl ⟨2, by decide, by decide⟩, by decide, by decide⟩, by decide⟩
/-- The values at the ends of the range, one past them, and a label (2.3). -/
theorem witness_FillLineGivesItsValue :
    LineOf fillWord ["-2147483648".toList] [".fill".toList, "-2147483648".toList] ∧
    SpellsValue [] "-2147483648".toList (-2147483648) ∧ SpellsValue [("a".toList, 7)] "a".toList 7 ∧
    parseLiteral? "2147483648".toList = some 2147483648 ∧ parseLiteral? "nowhere".toList = none ∧
    assembleLine [] 0 [".fill".toList, "-2147483648".toList] = .ok 0x80000000#32 ∧
    assembleLine [] 0 [".fill".toList, "2147483647".toList] = .ok 0x7FFFFFFF#32 :=
  ⟨.inl rfl, .inr ⟨by decide, by decide⟩, .inl ⟨7, by decide, rfl⟩, by decide, by decide, by decide, by decide⟩
/-- One line for each clause: `loop`, `ADD 0 1 2`, `halt now`, `add 0 1 8`, `jalr r0 1`, `lw 0 8 1` (2.3, D13, D15, D16). -/
theorem witness_RejectedLineNamesItsError :
    "loop".toList ∉ keywordTokens ∧ "ADD".toList ∉ keywordTokens ∧ "0".toList ∉ keywordTokens ∧
    "halt".toList ∈ keywordTokens ∧ ["now".toList].length ≠ operandCountOf "halt".toList ∧
    SpellsNoReg "8".toList ∧ SpellsNoReg "r0".toList ∧
    LineOf "lw".toList ["0".toList, "8".toList, "1".toList] ["lw".toList, "0".toList, "8".toList, "1".toList] ∧
    SpellsOffset [] 0 (decide ("lw".toList = "beq".toList)) "1".toList 1 :=
  ⟨by decide, by decide, by decide, by decide, by decide, by decide, by decide, .inl rfl,
    .inr ⟨by decide, by decide⟩, by decide, by decide⟩

end Sys2Proof.Tests
end

section
/-! PROOFS of the family 00_scope. The invariant of the machine (`State.Inv`) is kept by every step, a step writes at most one
place, and a capacity outside its bound is refused at load. -/

namespace Sys2Proof.Machine

/-! ### The invariant: its part about the data, and its part about the end of the run. -/

/-- The part of the invariant that mentions neither the status, nor the pc, nor the event (R6, R15, R16, R25). -/
def State.DataOk (s : State) : Prop :=
  s.CapOk ∧ s.mem.wf = true ∧ s.mem.boundedBy s.memcap = true ∧ s.numLoaded ≤ s.memcap

theorem State.inv_iff (s : State) : s.Inv ↔ s.DataOk ∧ s.endOk = true := by
  simp only [State.Inv, State.DataOk, and_assoc]

/-- Of all effects only a store touches the data, and it keeps the canonical form and the bound (R28). -/
theorem Effect.dataOk {s t : State} (h : Effect s t) (hs : s.DataOk) : t.DataOk := by
  cases h with
  | store n v hn =>
    obtain ⟨hcap, hwf, hbound, hload⟩ := hs
    exact ⟨hcap, Memory.wf_write hwf n v, Memory.boundedBy_write hbound hn v, hload⟩
  | nothing | register | branch | link | outOfBounds | unknown | halt => exact hs

/-! When the status, the pc and the event agree: one lemma per way a step can leave them. -/

theorem State.endOk_of_running_of_no_event {s : State} (hs : s.status = .running) (he : s.event = none) :
    s.endOk = true := by
  simp [State.endOk, hs, he]

theorem State.endOk_raise_memOutOfBounds {s : State} (hs : s.status = .running) (ea : Int) :
    (s.raise (.memOutOfBounds ea)).endOk = true := by
  simp [State.endOk, hs]

theorem State.endOk_raise_unknownOpcode {s : State} (hs : s.status = .running) (w : Word) :
    (s.raise (.unknownOpcode w)).endOk = true := by
  simp [State.endOk, hs]

theorem State.endOk_halt_iff (s : State) :
    ((s.stop .halted).raise (.halt s.pc)).endOk = true ↔ 1 ≤ s.pc.toInt ∧ s.pc.toInt ≤ s.memcap := by
  change (s.pc == s.pc && decide (1 ≤ s.pc.toInt) && decide (s.pc.toInt ≤ s.memcap)) = true ↔ _
  simp

theorem State.endOk_pcOutOfBounds_iff (s : State) :
    ((s.stop .pcOutOfBounds).raise (.pcOutOfBounds s.pc)).endOk = true ↔ (s.memcap : Int) ≤ s.pc.toInt := by
  change (s.pc == s.pc && decide ((s.memcap : Int) ≤ s.pc.toInt)) = true ↔ _
  simp

theorem State.endOk_negativePc_iff (s : State) :
    ((s.stop .negativePcFault).raise (.negativePc s.pc)).endOk = true ↔ s.pc.toInt < 0 := by
  change (s.pc == s.pc && decide (s.pc.toInt < 0)) = true ↔ _
  simp

/-- From a Running state with no event and a pc that an increment can have left, every effect leaves status, pc and event
in agreement (R88, R93). -/
theorem Effect.endOk {s t : State} (h : Effect s t) (hs : s.status = .running) (he : s.event = none)
    (hpc : 1 ≤ s.pc.toInt ∧ s.pc.toInt ≤ s.memcap) : t.endOk = true := by
  cases h with
  | nothing | register | store | branch | link => exact State.endOk_of_running_of_no_event hs he
  | outOfBounds ea => exact State.endOk_raise_memOutOfBounds hs ea
  | unknown w => exact State.endOk_raise_unknownOpcode hs w
  | halt => exact s.endOk_halt_iff.2 hpc

/-- Within the bound of R6 the increment of an in-bounds pc is exact (R13, R45). -/
theorem State.toInt_advance_pc {s : State} (hcap : s.CapOk) (hpc : 0 ≤ s.pc.toInt ∧ s.pc.toInt < s.memcap) :
    s.advance.pc.toInt = s.pc.toInt + 1 := by
  have hmax : s.memcap ≤ 2147450880 := hcap.2
  rw [State.advance_pc, toInt_wrap32_of_range (by omega) (by omega)]

/-- The effect of a fetched word on the incremented state keeps the invariant. -/
theorem Effect.inv_of_advance {s t : State} (h : Effect s.advance t) (hs : s.DataOk) (hrun : s.status = .running)
    (hpc : 0 ≤ s.pc.toInt ∧ s.pc.toInt < s.memcap) : t.Inv := by
  have hinc := State.toInt_advance_pc hs.1 hpc
  have hadv : 1 ≤ s.advance.pc.toInt ∧ s.advance.pc.toInt ≤ s.advance.memcap := by
    rw [hinc, State.advance_memcap]
    omega
  exact t.inv_iff.2 ⟨h.dataOk hs, h.endOk hrun rfl hadv⟩

/-- What the end of a step can be, by the order of checks of R94: one of the two failed fetches, or the effect of the fetched
word on the incremented state (R45). -/
theorem step_cases {s t : State} (h : step s = .next t) :
    s.status = .running ∧
      ((s.pc.toInt < 0 ∧ t = (s.stop .negativePcFault).raise (.negativePc s.pc)) ∨
        ((s.memcap : Int) ≤ s.pc.toInt ∧ t = (s.stop .pcOutOfBounds).raise (.pcOutOfBounds s.pc)) ∨
        ((0 ≤ s.pc.toInt ∧ s.pc.toInt < s.memcap) ∧
          executeWord (s.memRead s.pc.toInt.toNat) s.advance = .next t)) := by
  obtain ⟨hrun, hcycle⟩ := step_eq_next h
  refine ⟨hrun, ?_⟩
  rcases cycle_cases s with ⟨hneg, hc⟩ | ⟨hbig, hc⟩ | ⟨hin, hc⟩ <;> rw [hc] at hcycle
  · exact .inl ⟨hneg, (Host.Outcome.next.inj hcycle).symm⟩
  · exact .inr (.inl ⟨hbig, (Host.Outcome.next.inj hcycle).symm⟩)
  · exact .inr (.inr ⟨hin, hcycle⟩)

/-- An answer of `executeWord` is one of the effects. -/
theorem effect_of_executeWord {w : Word} {s t : State} (h : executeWord w s = .next t) : Effect s t := by
  obtain ⟨u, hu, heff⟩ := executeWord_effect w s
  rw [hu] at h
  exact Host.Outcome.next.inj h ▸ heff

theorem step_keeps_inv {s t : State} (hs : s.Inv) (h : step s = .next t) : t.Inv := by
  have hdata : s.DataOk := (s.inv_iff.1 hs).1
  obtain ⟨hrun, ⟨hneg, rfl⟩ | ⟨hbig, rfl⟩ | ⟨hin, hexec⟩⟩ := step_cases h
  · exact (State.inv_iff _).2 ⟨hdata, s.endOk_negativePc_iff.2 hneg⟩
  · exact (State.inv_iff _).2 ⟨hdata, s.endOk_pcOutOfBounds_iff.2 hbig⟩
  · exact (effect_of_executeWord hexec).inv_of_advance hdata hrun hin

end Sys2Proof.Machine

namespace Sys2Proof.Claims

open Sys2Proof.Machine

/-! ### One write per step (R9, R11, R12). -/

/-- The step from `s` to `t` writes no memory, and of the registers at most the one R11's table names for the word `w`. -/
def WritesRegisterOf (w : Word) (s t : State) : Prop :=
  t.mem = s.mem ∧ ∀ r, t.reg r ≠ s.reg r → registerWritten w s = some r

/-- The word `w` is a sw in bounds, and the step from `s` to `t` is its memory write and nothing else (R79). -/
def IsStoreOf (w : Word) (s t : State) : Prop :=
  ∃ a b off, decode w = .ok (.sw a b off) ∧ InBounds s (effectiveAddress s a off) ∧
    t = s.memWrite (effectiveAddress s a off).toNat (s.reg b)

theorem writesRegisterOf_of_no_write {w : Word} {s t : State} (hm : t.mem = s.mem) (hr : t.regs = s.regs) :
    WritesRegisterOf w s t :=
  ⟨hm, fun r hne => absurd (congrArg (Vector.get · r) hr) hne⟩

theorem writesRegisterOf_setReg {w : Word} {s : State} {d : Reg} (hw : registerWritten w s = some d) (v : Word) :
    WritesRegisterOf w s (s.setReg d v) := by
  refine ⟨rfl, fun r hr => ?_⟩
  have hrd : r = d := by
    by_contra hne
    exact hr (by rw [State.reg_setReg, if_neg hne])
  rw [hw, hrd]

/-- The column "register written" of R11 for lw in bounds, the one row with a condition. -/
theorem registerWritten_lw_inBounds {w : Word} {s : State} {a b : Reg} {off : Int} (hd : decode w = .ok (.lw a b off))
    (hb : InBounds s (effectiveAddress s a off)) : registerWritten w s = some b := by
  rw [registerWritten, hd]
  exact if_pos hb

/-- An instruction writes the register R11's table names or, for sw in bounds, one memory word. -/
theorem exec_writesRegisterOf_or_isStoreOf {w : Word} {i : Instr} {s t : State} (hd : decode w = .ok i)
    (h : exec i s = .next t) : WritesRegisterOf w s t ∨ IsStoreOf w s t := by
  cases i with
  | add a b d | nand a b d =>
    cases h
    exact .inl (writesRegisterOf_setReg (by rw [registerWritten, hd]) _)
  | lw a b off =>
    by_cases hb : InBounds s (effectiveAddress s a off)
    · cases (exec_lw_inBounds hb b).symm.trans h
      exact .inl (writesRegisterOf_setReg (registerWritten_lw_inBounds hd hb) _)
    · cases (exec_lw_outOfBounds hb b).symm.trans h
      exact .inl (writesRegisterOf_of_no_write rfl rfl)
  | sw a b off =>
    by_cases hb : InBounds s (effectiveAddress s a off)
    · cases (exec_sw_inBounds hb b).symm.trans h
      exact .inr ⟨a, b, off, hd, hb, rfl⟩
    · cases (exec_sw_outOfBounds hb b).symm.trans h
      exact .inl (writesRegisterOf_of_no_write rfl rfl)
  | beq a b off =>
    by_cases he : s.reg a = s.reg b
    · cases (exec_beq_eq he off).symm.trans h
      exact .inl (writesRegisterOf_of_no_write rfl rfl)
    · cases (exec_beq_ne he off).symm.trans h
      exact .inl (writesRegisterOf_of_no_write rfl rfl)
  | jalr a b =>
    cases h
    exact .inl (writesRegisterOf_setReg (s := s) (by rw [registerWritten, hd]) s.pc)
  | halt | noop =>
    cases h
    exact .inl (writesRegisterOf_of_no_write rfl rfl)

/-- A fetched word executes as the instruction it decodes to, or else raises the unknown-opcode event and nothing more
(R45, R85). -/
theorem executeWord_cases {w : Word} {s t : State} (h : executeWord w s = .next t) :
    (∃ i, decode w = .ok i ∧ exec i s = .next t) ∨ ∃ u, t = s.raise (.unknownOpcode u) := by
  unfold executeWord at h
  split at h
  · next i hd => exact .inl ⟨i, hd, h⟩
  · next u hd => exact .inr ⟨u, (Host.Outcome.next.inj h).symm⟩

/-- Executing any word writes at most one place (R9, R12). -/
theorem executeWord_writesRegisterOf_or_isStoreOf {w : Word} {s t : State} (h : executeWord w s = .next t) :
    WritesRegisterOf w s t ∨ IsStoreOf w s t := by
  obtain ⟨i, hd, hexec⟩ | ⟨u, rfl⟩ := executeWord_cases h
  · exact exec_writesRegisterOf_or_isStoreOf hd hexec
  · exact .inl (writesRegisterOf_of_no_write rfl rfl)

/-- R11's written column does not depend on the pc or the event of the state. -/
theorem registerWritten_advance (w : Word) (s : State) : registerWritten w s.advance = registerWritten w s := rfl

/-! ### The statements. -/

/-- Settles O39: a failed fetch keeps the data and ends the run with the event its pc calls for, and every effect of a fetched
word keeps the data and, from an incremented pc in 1..MEMCAP, the agreement of status, pc and event. -/
theorem everyStepKeepsTheInvariant : Obligations.EveryStepKeepsTheInvariant :=
  fun _ _ => step_keeps_inv

/-- Settles O32: a failed fetch writes no place, and an executed word either leaves memory alone or is a sw in bounds. -/
theorem stepWritesAtMostOnePlace : Obligations.StepWritesAtMostOnePlace := by
  intro s t h
  obtain ⟨-, ⟨-, rfl⟩ | ⟨-, rfl⟩ | ⟨hin, hexec⟩⟩ := step_cases h
  · exact .inl ⟨rfl, fun r hr => absurd rfl hr⟩
  · exact .inl ⟨rfl, fun r hr => absurd rfl hr⟩
  · obtain ⟨hmem, hreg⟩ | ⟨a, b, off, hd, hb, rfl⟩ := executeWord_writesRegisterOf_or_isStoreOf hexec
    · exact .inl ⟨hmem, fun r hr => ⟨hin, registerWritten_advance (fetched s) s ▸ hreg r hr⟩⟩
    · exact .inr ⟨fun r => rfl, hin, a, b, off, hd, hb, fun n hn => State.memRead_memWrite_of_ne s.advance _ hn⟩

/-- Settles O44: `resetAndLoad` answers only under the capacity check of D1, whose upper end is 2^31 - 2^15. -/
theorem loadRefusesCapacityOutOfBound : Obligations.LoadRefusesCapacityOutOfBound :=
  fun _ _ hcap => if_neg hcap

end Sys2Proof.Claims
end

section
/-! PROOFS of the family 10_state. What reset and load leave, which registers and fields a step can read or write, and the
datapath: its signals in the decoder's terms, its clock as the step, and its `pc_next` as R24's table. -/

namespace Sys2Proof.Machine

/-! ### Reset and load. -/

theorem Config.memcap_bound : 1 ≤ Config.memcap ∧ Config.memcap ≤ Config.maxMemcap := by
  have hlt : Config.memcapLessOne.val < 2147450880 := Config.memcapLessOne.isLt
  have hmax : Config.maxMemcap = 2147450880 := rfl
  unfold Config.memcap
  omega

theorem State.reset_capOk : State.reset.CapOk := Config.memcap_bound

@[simp] theorem State.reg_reset (r : Reg) : State.reset.reg r = 0#32 := Vector.getElem_replicate r.isLt

theorem resetAndLoad_of_bound {cap : Nat} (h : 1 ≤ cap ∧ cap ≤ Config.maxMemcap) (img : List Word) :
    resetAndLoad cap img = some
      { state :=
          { State.reset with memcap := cap, mem := Memory.ofWords 0 (img.take cap), numLoaded := min img.length cap }
        report := if cap < img.length then some .memoryOverflow else none } :=
  if_pos h

/-- The memory that a load fills reads as the image below the capacity, and as 0 elsewhere (R101, R102). -/
theorem Memory.read_ofWords_take (img : List Word) (cap n : Nat) :
    (Memory.ofWords 0 (img.take cap)).read n = if n < cap then img.getD n 0#32 else 0#32 := by
  rw [Memory.read_ofWords, if_pos (Nat.zero_le n), Nat.sub_zero]
  simp only [List.getD_eq_getElem?_getD, List.getElem?_take]
  split <;> rfl

/-! ### Changes of state that execution does not notice. -/

/-- A change of state that keeps what a fetched word reads, and commutes with what it writes, the general registers left
aside: which of these the word uses is R11's table. -/
structure Transparent (f : State → State) : Prop where
  pc : ∀ s, (f s).pc = s.pc
  mem : ∀ s, (f s).mem = s.mem
  memcap : ∀ s, (f s).memcap = s.memcap
  setPc : ∀ s t, (f s).setPc t = f (s.setPc t)
  memWrite : ∀ s a v, (f s).memWrite a v = f (s.memWrite a v)
  raise : ∀ s e, (f s).raise e = f (s.raise e)
  stop : ∀ s t, (f s).stop t = f (s.stop t)

theorem transparent_setReg (r : Reg) (v : Word) : Transparent (·.setReg r v) := by
  constructor <;> intros <;> rfl

/-- The state with another number of loaded words (R16). -/
def State.setNumLoaded (s : State) (n : Nat) : State := { s with numLoaded := n }

theorem transparent_setNumLoaded (n : Nat) : Transparent (·.setNumLoaded n) := by
  constructor <;> intros <;> rfl

theorem Effect.keeps_config {s t : State} (h : Effect s t) : t.numLoaded = s.numLoaded ∧ t.memcap = s.memcap := by
  cases h <;> exact ⟨rfl, rfl⟩

theorem step_keeps_config {s t : State} (h : step s = .next t) : t.numLoaded = s.numLoaded ∧ t.memcap = s.memcap := by
  obtain ⟨-, ⟨-, rfl⟩ | ⟨-, rfl⟩ | ⟨-, hexec⟩⟩ := step_cases h
  · exact ⟨rfl, rfl⟩
  · exact ⟨rfl, rfl⟩
  · exact (effect_of_executeWord hexec).keeps_config

end Sys2Proof.Machine

namespace Sys2Proof.Claims

open Sys2Proof.Machine

/-- An instruction does the same before and after a transparent change that keeps the registers it reads and commutes with
its register write (R11). -/
theorem exec_transparent {f : State → State} (hf : Transparent f) {w : Word} {i : Instr} {s : State}
    (hd : decode w = .ok i) (hread : ∀ q ∈ registersRead w, (f s).reg q = s.reg q)
    (hwrite : ∀ d, registerWritten w s = some d → ∀ v, (f s).setReg d v = f (s.setReg d v)) :
    exec i (f s) = mapNext f (exec i s) := by
  cases i with
  | add a b d | nand a b d =>
    simp only [registersRead, hd, List.forall_mem_cons] at hread
    obtain ⟨ha, hb, -⟩ := hread
    simp only [exec, execAdd, execNand, mapNext, ha, hb, hwrite d (by rw [registerWritten, hd])]
  | lw a b off =>
    have ha : (f s).reg a = s.reg a := hread a (by simp [registersRead, hd])
    have hea : effectiveAddress (f s) a off = effectiveAddress s a off := by simp only [effectiveAddress, ha]
    by_cases hin : InBounds s (effectiveAddress s a off)
    · rw [exec_lw_inBounds hin, exec_lw_inBounds (by rwa [hea, hf.memcap]), hea, mapNext,
        hwrite b (registerWritten_lw_inBounds hd hin), State.memRead, hf.mem, State.memRead]
    · rw [exec_lw_outOfBounds hin, exec_lw_outOfBounds (by rwa [hea, hf.memcap]), hea, mapNext, hf.raise]
  | sw a b off =>
    simp only [registersRead, hd, List.forall_mem_cons] at hread
    obtain ⟨ha, hb, -⟩ := hread
    have hea : effectiveAddress (f s) a off = effectiveAddress s a off := by simp only [effectiveAddress, ha]
    by_cases hin : InBounds s (effectiveAddress s a off)
    · rw [exec_sw_inBounds hin, exec_sw_inBounds (by rwa [hea, hf.memcap]), hea, mapNext, hb, hf.memWrite]
    · rw [exec_sw_outOfBounds hin, exec_sw_outOfBounds (by rwa [hea, hf.memcap]), hea, mapNext, hf.raise]
  | beq a b off =>
    simp only [registersRead, hd, List.forall_mem_cons] at hread
    obtain ⟨ha, hb, -⟩ := hread
    by_cases he : s.reg a = s.reg b
    · rw [exec_beq_eq he, exec_beq_eq (by rw [ha, hb, he]), mapNext, branchTarget, hf.pc, hf.setPc, branchTarget]
    · rw [exec_beq_ne he, exec_beq_ne (by rwa [ha, hb]), mapNext]
  | jalr a b =>
    have ha : (f s).reg a = s.reg a := hread a (by simp [registersRead, hd])
    simp only [exec, execJalr, mapNext, State.reg_setReg, ha, hf.pc, ← hf.setPc]
    rw [hwrite b (by rw [registerWritten, hd])]
  | halt => simp only [exec, execHalt, mapNext, hf.pc, hf.stop, hf.raise]
  | noop => rfl

theorem executeWord_transparent {f : State → State} (hf : Transparent f) {w : Word} {s : State}
    (hread : ∀ q ∈ registersRead w, (f s).reg q = s.reg q)
    (hwrite : ∀ d, registerWritten w s = some d → ∀ v, (f s).setReg d v = f (s.setReg d v)) :
    executeWord w (f s) = mapNext f (executeWord w s) := by
  unfold executeWord
  split
  · next i hd => exact exec_transparent hf hd hread hwrite
  · simp only [execUnknown, mapNext, hf.raise]

theorem cycle_setNumLoaded (s : State) (n : Nat) :
    cycle (s.setNumLoaded n) = mapNext (·.setNumLoaded n) (cycle s) := by
  have hpc : (s.setNumLoaded n).pc = s.pc := rfl
  have hfetch : (s.setNumLoaded n).fetch = s.fetch := rfl
  unfold cycle
  rw [hpc, hfetch]
  split
  · rfl
  · cases s.fetch with
    | none => rfl
    | some w =>
      exact executeWord_transparent (s := s.advance) (transparent_setNumLoaded n) (fun _ _ => rfl) (fun _ _ _ => rfl)

theorem step_setNumLoaded (s : State) (n : Nat) :
    step (s.setNumLoaded n) = mapNext (·.setNumLoaded n) (step s) := by
  have hstatus : (s.setNumLoaded n).status = s.status := rfl
  unfold step
  rw [hstatus]
  cases s.status with
  | running => exact cycle_setNumLoaded s n
  | halted | pcOutOfBounds | negativePcFault => rfl

end Sys2Proof.Claims

/-! ### What the decoder's answer says about the opcode value. -/

namespace Sys2Proof

/-- The instruction that the format of a word's opcode value makes of its fields (R38 to R41, R46). -/
inductive Spells (w : Word) : Instr → Prop where
  | add (h : opv w = 0) : Spells w (.add (fieldA w) (fieldB w) (fieldD w))
  | nand (h : opv w = 1) : Spells w (.nand (fieldA w) (fieldB w) (fieldD w))
  | lw (h : opv w = 2) : Spells w (.lw (fieldA w) (fieldB w) (fieldOff w))
  | sw (h : opv w = 3) : Spells w (.sw (fieldA w) (fieldB w) (fieldOff w))
  | beq (h : opv w = 4) : Spells w (.beq (fieldA w) (fieldB w) (fieldOff w))
  | jalr (h : opv w = 5) : Spells w (.jalr (fieldA w) (fieldB w))
  | halt (h : opv w = 6) : Spells w .halt
  | noop (h : opv w = 7) : Spells w .noop

theorem spells_of_decode {w : Word} {i : Instr} (h : decode w = .ok i) : Spells w i := by
  unfold decode at h
  split at h <;> cases h <;> constructor <;> assumption

theorem opv_of_decode_error {w u : Word} (h : decode w = .error (.unknownOpcode u)) : 8 ≤ opv w ∧ u = w := by
  unfold decode at h
  split at h <;> cases h
  refine ⟨?_, rfl⟩
  by_contra! hlt
  interval_cases opv w <;> contradiction

end Sys2Proof

namespace Sys2Proof.Machine

/-! ### The signals of the datapath in the decoder's terms (R21). -/

theorem toNat_sigOpv (w : Word) : (sigOpv w).toNat = opv w := (bits_eq_extractLsb' w 22 10 (by decide)).symm

theorem sigOpValid_eq (w : Word) : sigOpValid w = decide (opv w < 8) := by
  have hbits : (w.extractLsb' 25 7).toNat = bits w 31 25 := (bits_eq_extractLsb' w 25 7 (by decide)).symm
  have hlt := w.isLt
  rw [sigOpValid, beq_eq_decide, decide_eq_decide, ← BitVec.toNat_inj, hbits]
  simp only [bits, opv, BitVec.toNat_ofNat]
  omega

theorem sigIsOp_eq (w : Word) {k : Nat} (hk : k < 8) : sigIsOp w k = decide (opv w = k) := by
  have hop : sigOpv w = BitVec.ofNat 10 k ↔ opv w = k := by
    rw [← BitVec.toNat_inj, toNat_sigOpv, BitVec.toNat_ofNat, Nat.mod_eq_of_lt (by omega)]
  rw [sigIsOp, sigOpValid_eq, beq_eq_decide, Bool.eq_iff_iff]
  simp only [Bool.and_eq_true, decide_eq_true_eq, hop]
  omega

theorem sigA_eq (w : Word) : sigA w = fieldA w := (fieldA_eq w).symm
theorem sigB_eq (w : Word) : sigB w = fieldB w := (fieldB_eq w).symm
theorem sigD_eq (w : Word) : sigD w = fieldD w := (fieldD_eq w).symm

theorem sigOff_eq (w : Word) : sigOff w = wrap32 (fieldOff w) := by rw [fieldOff_eq]; rfl

theorem sigPcInc_eq (s : State) : sigPcInc s = s.advance.pc := (wrap32_toInt_succ s.pc).symm

/-- 33 bits hold the exact effective address (R77). -/
theorem toInt_sigDmAddr (s : State) (w : Word) :
    (sigDmAddr s w).toInt = effectiveAddress s (fieldA w) (fieldOff w) := by
  have hoff : (sigOff w).toInt = fieldOff w := by rw [fieldOff_eq]; exact BitVec.toInt_signExtend_of_le (by decide)
  obtain ⟨hlo, hhi⟩ := fieldOff_range w
  have hreg := BitVec.le_toInt (s.reg (fieldA w))
  have hreg' := BitVec.two_mul_toInt_lt (x := s.reg (fieldA w))
  rw [sigDmAddr, BitVec.toInt_add, BitVec.toInt_signExtend_of_le (by decide), BitVec.toInt_signExtend_of_le (by decide),
    hoff, sigA_eq]
  exact Int.bmod_eq_of_le (by omega) (by omega)

theorem toNat_eq_of_toInt_nonneg {n : Nat} {x : BitVec n} (h : 0 ≤ x.toInt) : x.toNat = x.toInt.toNat := by
  rw [BitVec.toInt_eq_toNat_of_lt (BitVec.toInt_pos_iff.1 h), Int.toNat_natCast]

theorem toNat_sigDmAddr {s : State} {w : Word} (h : 0 ≤ effectiveAddress s (fieldA w) (fieldOff w)) :
    (sigDmAddr s w).toNat = (effectiveAddress s (fieldA w) (fieldOff w)).toNat := by
  rw [← toInt_sigDmAddr] at h ⊢
  exact toNat_eq_of_toInt_nonneg h

theorem sigDmInb_eq (s : State) (w : Word) :
    sigDmInb s w = decide (0 ≤ effectiveAddress s (fieldA w) (fieldOff w) ∧
      effectiveAddress s (fieldA w) (fieldOff w) < s.memcap) := by
  rw [sigDmInb, toInt_sigDmAddr, Bool.decide_and]

/-! ### The clock of the datapath is the step. -/

theorem effectiveAddress_advance (s : State) (a : Reg) (off : Int) :
    effectiveAddress s.advance a off = effectiveAddress s a off := rfl

theorem wrap32_branchTarget (s : State) (off : Int) : wrap32 (branchTarget s off) = s.pc + wrap32 off := by
  rw [branchTarget, wrap32_add, wrap32_toInt]

theorem next_ext {s t : State} (regs : s.regs = t.regs) (pc : s.pc = t.pc) (status : s.status = t.status)
    (mem : s.mem = t.mem) (event : s.event = t.event) (memcap : s.memcap = t.memcap)
    (numLoaded : s.numLoaded = t.numLoaded) : (.next s : Host.Outcome State Fault Refusal) = .next t := by
  cases s; cases t; simp_all

/-- The commit of the signals is the execution of the fetched word: with the signals in the decoder's terms, each row of the
opcode table leaves the same seven fields (R12, R45). -/
theorem executeWord_eq_commit {s : State} (hrun : s.status = .running) (w : Word) :
    executeWord w s.advance = .next (commit s (signals s w)) := by
  simp (disch := decide) only [commit, signals, sigRfWrite, sigAluOut, sigDmRdata, sigDmWdata, sigPcNext, sigEvent,
    sigOpValid_eq, sigIsOp_eq, sigA_eq, sigB_eq, sigD_eq, sigOff_eq, sigPcInc_eq, sigDmInb_eq, toInt_sigDmAddr]
  unfold executeWord
  split
  · next i hd =>
    cases spells_of_decode hd with
    | add h | nand h | jalr h | halt h | noop h => apply next_ext <;> simp [h, hrun, commitRegs, commitMem]
    | lw h =>
      by_cases hin : Claims.InBounds s (effectiveAddress s (fieldA w) (fieldOff w))
      · rw [exec_lw_inBounds (s := s.advance) hin, effectiveAddress_advance]
        apply next_ext <;> simp [h, hin, hrun, commitRegs, commitMem, toNat_sigDmAddr]
      · rw [exec_lw_outOfBounds (s := s.advance) hin, effectiveAddress_advance]
        apply next_ext <;> simp [h, hin, hrun, commitRegs, commitMem]
    | sw h =>
      by_cases hin : Claims.InBounds s (effectiveAddress s (fieldA w) (fieldOff w))
      · rw [exec_sw_inBounds (s := s.advance) hin, effectiveAddress_advance]
        apply next_ext <;> simp [h, hin, hrun, commitRegs, commitMem, toNat_sigDmAddr]
      · rw [exec_sw_outOfBounds (s := s.advance) hin, effectiveAddress_advance]
        apply next_ext <;> simp [h, hin, hrun, commitRegs, commitMem]
    | beq h =>
      by_cases he : s.reg (fieldA w) = s.reg (fieldB w)
      · rw [exec_beq_eq (s := s.advance) he, wrap32_branchTarget]
        apply next_ext <;> simp [h, he, hrun, aluEq, commitRegs, commitMem]
      · rw [exec_beq_ne (s := s.advance) he]
        apply next_ext <;> simp [h, he, hrun, aluEq, commitRegs, commitMem]
  · next u hd =>
    obtain ⟨h, rfl⟩ := opv_of_decode_error hd
    have hne {k : Nat} (hk : k < 8) : opv u ≠ k := by omega
    apply next_ext <;> simp [h, hne, hrun, commitRegs, commitMem]

theorem step_eq_clock {s : State} (hrun : s.status = .running) : step s = .next (clock s) := by
  have hmsb : s.pc.msb = decide (s.pc.toInt < 0) := BitVec.msb_eq_toInt
  rw [step_running hrun]
  rcases cycle_cases s with ⟨hneg, hc⟩ | ⟨hbig, hc⟩ | ⟨hin, hc⟩ <;> rw [hc, clock]
  · rw [if_neg (by simp [fetchOk]; omega), if_pos (by simp [hmsb, hneg])]
    rfl
  · rw [if_neg (by simp [fetchOk]; omega), if_neg (by simp [hmsb]; omega)]
    rfl
  · rw [if_pos (by simp [fetchOk, hin]), toNat_eq_of_toInt_nonneg hin.1]
    exact executeWord_eq_commit hrun _

end Sys2Proof.Machine

namespace Sys2Proof.Claims

open Sys2Proof.Machine

/-- The signal `pc_next` is R24's column "pc after the step", exact under R6's bound. -/
theorem toInt_sigPcNext {s : State} (hcap : s.CapOk) (hin : InBounds s s.pc.toInt) (w : Word) :
    (sigPcNext s w).toInt = pcAfter s w := by
  have hinc : s.advance.pc.toInt = s.pc.toInt + 1 := State.toInt_advance_pc hcap hin
  simp (disch := decide) only [sigPcNext, sigIsOp_eq, sigA_eq, sigB_eq, sigOff_eq, sigPcInc_eq]
  unfold pcAfter
  cases hd : decode w with
  | error e =>
    obtain ⟨u⟩ := e
    obtain ⟨h, -⟩ := opv_of_decode_error hd
    have hne {k : Nat} (hk : k < 8) : opv w ≠ k := by omega
    simpa [hne] using hinc
  | ok i =>
    cases spells_of_decode hd with
    | add h | nand h | lw h | sw h | halt h | noop h => simpa [h] using hinc
    | jalr h =>
      by_cases hab : fieldA w = fieldB w
      · simpa [h, hab] using hinc
      · simp [h, hab]
    | beq h =>
      by_cases he : s.reg (fieldA w) = s.reg (fieldB w)
      · obtain ⟨hlo, hhi⟩ := fieldOff_range w
        have hmax : s.memcap ≤ 2147450880 := hcap.2
        have htarget : branchTarget s.advance (fieldOff w) = s.pc.toInt + 1 + fieldOff w := by rw [branchTarget, hinc]
        simp only [h, he, aluEq, beq_self_eq_true, decide_true, Bool.and_true, if_true]
        rw [← wrap32_branchTarget, htarget, toInt_wrap32_of_range (by omega) (by omega)]
      · simpa [h, he, aluEq] using hinc

/-! ### The statements. -/

/-- Settles O40: the opaque capacity is in its bound, and nothing is loaded. -/
theorem resetHoldsTheInvariant : Obligations.ResetHoldsTheInvariant :=
  ⟨State.reset_capOk, State.reset_mem_wf, Memory.boundedBy_nil _, Nat.zero_le _,
    State.endOk_of_running_of_no_event rfl rfl⟩

/-- Settles O45: the capacity check of the load passes at the opaque capacity, and the empty image fills nothing. -/
theorem resetIsTheEmptyLoad : Obligations.ResetIsTheEmptyLoad :=
  ⟨resetAndLoad_of_bound State.reset_capOk [], State.reg_reset, Memory.read_nil, rfl, rfl, rfl, rfl, State.reset_capOk⟩

/-- Settles O42: the loaded memory reads as the image below min(count, MEMCAP) and as 0 from there on. -/
theorem loadGivesTheInitialState : Obligations.LoadGivesTheInitialState := by
  intro cap img hlo hhi
  refine ⟨_, resetAndLoad_of_bound ⟨hlo, hhi⟩ img, State.reg_reset, fun n hn => ?_, fun n hn => ?_, rfl, rfl, rfl, rfl, ?_⟩
  · obtain ⟨hlen, hcap⟩ := Nat.lt_min.1 hn
    simp [State.memRead, Memory.read_ofWords_take, hcap, List.getElem?_eq_getElem hlen]
  · simp only [State.memRead, Memory.read_ofWords_take]
    split
    · next hcap => exact List.getD_eq_default _ _ (by omega)
    · rfl
  · simp

/-- Settles O33: an executed word writes the register R11's table names or is a store, which writes none. -/
theorem onlyTheNamedRegisterIsWritten : Obligations.OnlyTheNamedRegisterIsWritten := by
  intro w s t h r hr
  obtain ⟨-, hreg⟩ | ⟨a, b, off, -, -, rfl⟩ := executeWord_writesRegisterOf_or_isStoreOf h
  · exact hreg r hr
  · exact absurd rfl hr

/-- Settles O34: setting a register is transparent to every word that neither reads nor writes that register. -/
theorem unreadRegistersDoNotMatter : Obligations.UnreadRegistersDoNotMatter := by
  intro w s r v hread hwrite
  refine executeWord_transparent (transparent_setReg r v) (fun q hq => ?_) (fun d hd x => ?_)
  · rw [State.reg_setReg, if_neg (ne_of_mem_of_not_mem hq hread)]
  · exact State.setReg_comm s (by rintro rfl; exact hwrite hd) v x

/-- Settles O35: setting numLoaded is transparent to every word, and the two failed fetches do not read it either. -/
theorem numLoadedIsFixedAndUnread : Obligations.NumLoadedIsFixedAndUnread :=
  ⟨fun _ _ => step_keeps_config, step_setNumLoaded⟩

/-- Settles O41: `fetch_ok` and the sign of the pc tell the three cases of the cycle apart, and the commit of the signals is
the execution of the fetched word. -/
theorem datapathRefinesStep : Obligations.DatapathRefinesStep :=
  fun _ => step_eq_clock

/-- Settles O30: an executed word leaves the datapath's `pc_next`, and a failed fetch the pc as it was. -/
theorem pcAfterEachStep : Obligations.PcAfterEachStep := by
  intro s hcap hrun
  rw [step_running hrun]
  rcases cycle_cases s with ⟨hneg, hc⟩ | ⟨hbig, hc⟩ | ⟨hin, hc⟩ <;> rw [hc]
  · exact ⟨_, rfl, fun h => by omega, fun h => by omega, fun _ => ⟨rfl, rfl⟩⟩
  · exact ⟨_, rfl, fun h => by omega, fun _ => ⟨rfl, rfl⟩, fun h => by omega⟩
  · refine ⟨_, executeWord_eq_commit hrun _, fun _ => ⟨toInt_sigPcNext hcap hin _, fun hd => ?_⟩, fun h => by omega,
      fun h => by omega⟩
    cases spells_of_decode hd with
    | halt h => exact if_pos (by rw [sigIsOp_eq _ (by decide), h]; rfl)

end Sys2Proof.Claims
end

section
/-! PROOFS of the family 20_memory. Which step changes memory, a load after a store, and the fetch of a word just stored. -/

namespace Sys2Proof.Claims

open Sys2Proof.Machine

/-! ### Reading back the word a store has written. -/

/-- A memory access adds up the same address before and after a store (R77). -/
theorem effectiveAddress_memWrite (s : State) (n : Nat) (v : Word) (a : Reg) (off : Int) :
    effectiveAddress (s.memWrite n v) a off = effectiveAddress s a off := rfl

theorem memRead_memWrite_same {s : State} (hwf : s.mem.wf = true) (n : Nat) (v : Word) :
    (s.memWrite n v).memRead n = v := by
  rw [State.memRead_memWrite s hwf, if_pos rfl]

/-- A Running block at an in-bounds pc executes the fetched word on the incremented state (R45). -/
theorem step_of_pc_inBounds {s : State} (hrun : s.status = .running) (hin : InBounds s s.pc.toInt) :
    step s = executeWord (fetched s) s.advance := by
  rw [step_running hrun]
  rcases cycle_cases s with ⟨hneg, -⟩ | ⟨hbig, -⟩ | ⟨-, hc⟩
  · omega
  · omega
  · exact hc

/-- A Running block at an in-bounds pc whose word has just been stored executes the stored word (R36). -/
theorem step_memWrite_at_pc {s : State} (hwf : s.mem.wf = true) (hrun : s.status = .running)
    (hin : InBounds s s.pc.toInt) (v : Word) :
    step (s.memWrite s.pc.toInt.toNat v) = executeWord v (s.memWrite s.pc.toInt.toNat v).advance := by
  have hfetched : fetched (s.memWrite s.pc.toInt.toNat v) = v := memRead_memWrite_same hwf _ v
  rw [step_of_pc_inBounds (s := s.memWrite s.pc.toInt.toNat v) hrun hin, hfetched]

/-! ### The statements. -/

/-- Settles O36: of the two places a step can write, the register write leaves memory as it was, and the store of a sw leaves
every word but the one at its effective address. -/
theorem onlySwChangesMemory : Obligations.OnlySwChangesMemory := by
  intro s t h n hn
  obtain ⟨hmem, -⟩ | ⟨-, -, a, b, off, hd, hb, hkeep⟩ := stepWritesAtMostOnePlace s t h
  · exact absurd (congrArg (Memory.read · n) hmem) hn
  · exact ⟨a, b, off, hd, hb, not_imp_comm.1 (hkeep n) hn⟩

/-- Settles O37: the sw is one memory write, which moves no address, and the lw reads the word just written. -/
theorem loadAfterStoreGivesStoredWord : Obligations.LoadAfterStoreGivesStoredWord := by
  intro s a b c d off off' hwf hin hea
  have hlw : InBounds s (effectiveAddress s c off') := hea ▸ hin
  refine ⟨_, _, exec_sw_inBounds hin b, exec_lw_inBounds (s := s.memWrite _ _) hlw d, ?_⟩
  rw [State.reg_setReg, if_pos rfl, effectiveAddress_memWrite, hea, memRead_memWrite_same hwf]

/-- Settles O38: the increment of the pc is exact, so the store lands where the next fetch reads. -/
theorem storedWordIsFetchedNext : Obligations.StoredWordIsFetchedNext := by
  intro s a b off hcap hwf hrun hin hd hb hea
  have hpc : s.advance.pc.toInt = effectiveAddress s a off := (State.toInt_advance_pc hcap hin).trans hea.symm
  have hstep : step s = .next (s.advance.memWrite (effectiveAddress s a off).toNat (s.reg b)) := by
    rw [step_of_pc_inBounds hrun hin, executeWord_of_decode hd]
    exact exec_sw_inBounds (s := s.advance) hb b
  refine ⟨_, hstep, ?_⟩
  rw [← State.advance_eq, ← hpc]
  exact step_memWrite_at_pc (s := s.advance) hwf hrun (hpc ▸ hb) (s.reg b)

end Sys2Proof.Claims
end

section
/-! PROOFS of the family 30_encoding. The codec, the decoder against the encoder, the execution of every word, the image
text, and the assembler's two passes. -/

namespace Sys2Proof

/-! ### The codec as the library's signed patterns (R52 to R57). -/

theorem ofNat_toNat_emod (v : Int) (w : Nat) : BitVec.ofNat w (v % 2 ^ w).toNat = BitVec.ofInt w v := by
  have hlt : v % 2 ^ w < 2 ^ w := Int.emod_lt_of_pos v (by positivity)
  have hlt' : (v % 2 ^ w).toNat < 2 ^ w := by zify; omega
  apply BitVec.eq_of_toNat_eq
  simp [Nat.mod_eq_of_lt hlt']

theorem encodeSigned_of_representable {v : Int} {w : Nat} (h : Representable v w) :
    encodeSigned v w = some (BitVec.ofInt w v) := by
  rw [encodeSigned, if_pos h, ofNat_toNat_emod]

theorem encodeSigned_eq_some_iff {v : Int} {w : Nat} {u : BitVec w} :
    encodeSigned v w = some u ↔ Representable v w ∧ BitVec.ofInt w v = u := by
  by_cases h : Representable v w
  · rw [encodeSigned_of_representable h, Option.some.injEq, and_iff_right h]
  · simp only [encodeSigned, h, if_false, reduceCtorEq, false_and]

theorem toInt_ofInt_of_representable {v : Int} {w : Nat} (h : Representable v w) : (BitVec.ofInt w v).toInt = v :=
  BitVec.toInt_ofInt_eq_self h.1 h.2.1 (by omega)

theorem representable_toInt {w : Nat} (hw : 1 ≤ w) (u : BitVec w) : Representable u.toInt w :=
  ⟨hw, BitVec.le_toInt u, by have := BitVec.toInt_lt (x := u); omega⟩

theorem encodeSigned_toInt {w : Nat} (hw : 1 ≤ w) (u : BitVec w) : encodeSigned u.toInt w = some u :=
  encodeSigned_eq_some_iff.2 ⟨representable_toInt hw u, BitVec.ofInt_toInt⟩

/-- A field of 16 bits represents exactly the offset's range (R39, R53). -/
theorem offsetInRange_iff_representable (off : Int) : OffsetInRange off ↔ Representable off 16 := by
  unfold OffsetInRange Representable
  omega

/-! ### The opcode value and the decoder (R43 to R48). -/

theorem decode_of_spells {w : Word} {i : Instr} (h : Spells w i) : decode w = .ok i := by
  cases h with
  | _ h => simp only [decode, h]

/-- The decoder gives an instruction exactly at an opcode value in 0..7 (R44, R48). -/
theorem exists_decode_eq_ok_iff (w : Word) : (∃ i, decode w = .ok i) ↔ opv w < 8 := by
  constructor
  · rintro ⟨i, hi⟩
    cases spells_of_decode hi with
    | _ h => omega
  · intro h
    cases hd : decode w with
    | ok i => exact ⟨i, rfl⟩
    | error e =>
      obtain ⟨u⟩ := e
      obtain ⟨hge, -⟩ := opv_of_decode_error hd
      omega

theorem decode_of_le_opv {w : Word} (h : 8 ≤ opv w) : decode w = .error (.unknownOpcode w) := by
  cases hd : decode w with
  | ok i =>
    have := (exists_decode_eq_ok_iff w).1 ⟨i, hd⟩
    omega
  | error e =>
    obtain ⟨u⟩ := e
    rw [(opv_of_decode_error hd).2]

/-- What a word decodes to has an offset in its field's range, so it is well formed (R43). -/
theorem Spells.wellFormed {w : Word} {i : Instr} (h : Spells w i) : i.wellFormed = true := by
  cases h with
  | lw | sw | beq => exact decide_eq_true (fieldOff_range w)
  | add | nand | jalr | halt | noop => rfl

theorem opv_lt (w : Word) : opv w < 2 ^ 10 := bits_lt w 31 22

theorem opv_lt_iff (w : Word) : opv w < 8 ↔ w.toNat < 2 ^ 25 := by
  have hlt := w.isLt
  simp only [opv, bits]
  omega

/-- Bits 31:25 are 0 exactly at an opcode value in 0..7 (R44). -/
theorem highBits_eq_zero_iff (w : Word) : w.extractLsb' 25 7 = 0#7 ↔ opv w < 8 := by
  have hvalid := Machine.sigOpValid_eq w
  rwa [Machine.sigOpValid, beq_eq_decide, decide_eq_decide] at hvalid

theorem toNat_ushiftRight_22 (w : Word) : (w >>> 22).toNat = opv w := by
  have hlt := w.isLt
  simp only [BitVec.toNat_ushiftRight, Nat.shiftRight_eq_div_pow, opv, bits]
  omega

theorem toInt_sshiftRight_22 (w : Word) : (w.sshiftRight 22).toInt = w.toInt / 2 ^ 22 := by
  rw [BitVec.toInt_sshiftRight, Int.shiftRight_eq_div_pow]
  rfl

/-- The arithmetic shift gives an opcode value in 0..7 for the same words as the logical shift (R44). -/
theorem sshiftRight_22_inRange_iff (w : Word) :
    (0 ≤ (w.sshiftRight 22).toInt ∧ (w.sshiftRight 22).toInt < 8) ↔ opv w < 8 := by
  have hlt := w.isLt
  rw [toInt_sshiftRight_22, opv_lt_iff, BitVec.toInt_eq_toNat_cond]
  omega

theorem toInt_sshiftRight_22_of_lt {w : Word} (h : opv w < 8) : (w.sshiftRight 22).toInt = opv w := by
  have hlt := (opv_lt_iff w).1 h
  rw [toInt_sshiftRight_22, BitVec.toInt_eq_toNat_cond, opv, bits]
  omega

theorem toNat_extractLsb'_22_of_lt {w : Word} (h : opv w < 8) : (w.extractLsb' 22 3).toNat = opv w := by
  have hlt := (opv_lt_iff w).1 h
  rw [← bits_eq_extractLsb' w 22 3 (by decide), opv, bits, bits]
  omega

/-! ### The packed word as a number, and its fields (R58 to R61). -/

theorem toNat_packHead {op : Nat} (hop : op < 2 ^ 10) (a b : Reg) :
    (packHead op a b).toNat = op * 2 ^ 22 + a.val * 2 ^ 19 + b.val * 2 ^ 16 := by
  have ha := Nat.two_pow_add_eq_or_of_lt (i := 22) (b := a.val * 2 ^ 19) (by omega) op
  have hb := Nat.two_pow_add_eq_or_of_lt (i := 19) (b := b.val * 2 ^ 16) (by omega) (op * 8 + a.val)
  simp only [packHead, BitVec.toNat_or, BitVec.toNat_shiftLeft, BitVec.toNat_ofNat, Nat.shiftLeft_eq]
  rw [show op % 2 ^ 32 * 2 ^ 22 % 2 ^ 32 = 2 ^ 22 * op by omega,
    show a.val % 2 ^ 32 * 2 ^ 19 % 2 ^ 32 = a.val * 2 ^ 19 by omega,
    show b.val % 2 ^ 32 * 2 ^ 16 % 2 ^ 32 = b.val * 2 ^ 16 by omega, ← ha,
    show 2 ^ 22 * op + a.val * 2 ^ 19 = 2 ^ 19 * (op * 8 + a.val) by omega, ← hb]
  omega

/-- The head leaves bits 15:0 free for the rest of the format. -/
theorem toNat_packHead_or {op : Nat} (hop : op < 2 ^ 10) (a b : Reg) {low : Word} (hlow : low.toNat < 2 ^ 16) :
    (packHead op a b ||| low).toNat = op * 2 ^ 22 + a.val * 2 ^ 19 + b.val * 2 ^ 16 + low.toNat := by
  rw [BitVec.toNat_or, toNat_packHead hop,
    show op * 2 ^ 22 + a.val * 2 ^ 19 + b.val * 2 ^ 16 = 2 ^ 16 * (op * 64 + a.val * 8 + b.val) by omega,
    ← Nat.two_pow_add_eq_or_of_lt hlow]

theorem toNat_packO {op : Nat} (hop : op < 2 ^ 10) : (packO op).toNat = op * 2 ^ 22 := by
  simp only [packO, BitVec.toNat_shiftLeft, BitVec.toNat_ofNat, Nat.shiftLeft_eq]
  omega

theorem toNat_packR {op : Nat} (hop : op < 2 ^ 10) (a b d : Reg) :
    (packR op a b d).toNat = op * 2 ^ 22 + a.val * 2 ^ 19 + b.val * 2 ^ 16 + d.val := by
  have hd : (BitVec.ofNat 32 d.val).toNat = d.val := by rw [BitVec.toNat_ofNat]; omega
  rw [packR, toNat_packHead_or hop a b (by omega), hd]

theorem packI_of_offsetInRange {off : Int} (h : OffsetInRange off) (op : Nat) (a b : Reg) :
    packI op a b off = some (packHead op a b ||| (BitVec.ofInt 16 off).setWidth 32) := by
  rw [packI, encodeSigned_of_representable ((offsetInRange_iff_representable off).1 h), Option.map_some]

theorem toNat_setWidth_ofInt_16 (off : Int) : ((BitVec.ofInt 16 off).setWidth 32).toNat = (off % 2 ^ 16).toNat := by
  simp only [BitVec.toNat_setWidth, BitVec.toNat_ofInt]
  omega

theorem toNat_packHead_or_offset {op : Nat} (hop : op < 2 ^ 10) (a b : Reg) (off : Int) :
    (packHead op a b ||| (BitVec.ofInt 16 off).setWidth 32).toNat =
      op * 2 ^ 22 + a.val * 2 ^ 19 + b.val * 2 ^ 16 + (off % 2 ^ 16).toNat := by
  rw [toNat_packHead_or hop a b (by rw [toNat_setWidth_ofInt_16]; omega), toNat_setWidth_ofInt_16]

theorem map_toNat_packI {op : Nat} (hop : op < 2 ^ 10) (a b : Reg) {off : Int} (h : OffsetInRange off) :
    (packI op a b off).map BitVec.toNat =
      some (op * 2 ^ 22 + a.val * 2 ^ 19 + b.val * 2 ^ 16 + (off % 2 ^ 16).toNat) := by
  rw [packI_of_offsetInRange h, Option.map_some, toNat_packHead_or_offset hop]

/-- The fields that the decoder reads from a word given as the sum of its fields (R43). -/
theorem fields_of_toNat {w : Word} {op low : Nat} {a b : Reg} (_ : op < 2 ^ 10) (_ : low < 2 ^ 16)
    (h : w.toNat = op * 2 ^ 22 + a.val * 2 ^ 19 + b.val * 2 ^ 16 + low) :
    opv w = op ∧ fieldA w = a ∧ fieldB w = b ∧ offsetField w = BitVec.ofNat 16 low := by
  simp only [opv, fieldA, fieldB, offsetField, bits, h, Fin.ext_iff, Fin.val_ofNat]
  refine ⟨by omega, by omega, by omega, ?_⟩
  congr 1
  omega

theorem fields_packR {op : Nat} (hop : op < 2 ^ 10) (a b d : Reg) :
    opv (packR op a b d) = op ∧ fieldA (packR op a b d) = a ∧ fieldB (packR op a b d) = b ∧
      fieldD (packR op a b d) = d := by
  have h := toNat_packR hop a b d
  obtain ⟨hopv, ha, hb, -⟩ := fields_of_toNat hop (by omega) h
  refine ⟨hopv, ha, hb, ?_⟩
  simp only [fieldD, bits, h, Fin.ext_iff, Fin.val_ofNat]
  omega

theorem fields_packI {op : Nat} (hop : op < 2 ^ 10) (a b : Reg) {off : Int} (hoff : OffsetInRange off) :
    ∃ w, packI op a b off = some w ∧ opv w = op ∧ fieldA w = a ∧ fieldB w = b ∧ fieldOff w = off := by
  have hlow : (off % 2 ^ 16).toNat < 2 ^ 16 := by omega
  have hsum := toNat_packHead_or_offset hop a b off
  obtain ⟨hopv, ha, hb, hfield⟩ := fields_of_toNat hop hlow hsum
  refine ⟨_, packI_of_offsetInRange hoff op a b, hopv, ha, hb, ?_⟩
  rw [fieldOff, hfield, ofNat_toNat_emod, decodeSigned_eq_toInt,
    toInt_ofInt_of_representable ((offsetInRange_iff_representable off).1 hoff)]

theorem fields_packJ {op : Nat} (hop : op < 2 ^ 10) (a b : Reg) :
    opv (packJ op a b) = op ∧ fieldA (packJ op a b) = a ∧ fieldB (packJ op a b) = b := by
  have h := toNat_packHead hop a b
  obtain ⟨hopv, ha, hb, -⟩ := fields_of_toNat (low := 0) hop (by decide) (h.trans (Nat.add_zero _).symm)
  exact ⟨hopv, ha, hb⟩

/-- The encoder gives every well-formed instruction a word that spells it. -/
theorem exists_encode_spells {i : Instr} (h : i.wellFormed = true) : ∃ w, encode i = some w ∧ Spells w i := by
  cases i with
  | add a b d =>
    obtain ⟨hop, ha, hb, hd⟩ := fields_packR (op := 0) (by decide) a b d
    exact ⟨_, rfl, by simpa only [ha, hb, hd] using Spells.add hop⟩
  | nand a b d =>
    obtain ⟨hop, ha, hb, hd⟩ := fields_packR (op := 1) (by decide) a b d
    exact ⟨_, rfl, by simpa only [ha, hb, hd] using Spells.nand hop⟩
  | lw a b off =>
    obtain ⟨w, hw, hop, ha, hb, hoff⟩ := fields_packI (op := 2) (by decide) a b (of_decide_eq_true h)
    exact ⟨w, hw, by simpa only [ha, hb, hoff] using Spells.lw hop⟩
  | sw a b off =>
    obtain ⟨w, hw, hop, ha, hb, hoff⟩ := fields_packI (op := 3) (by decide) a b (of_decide_eq_true h)
    exact ⟨w, hw, by simpa only [ha, hb, hoff] using Spells.sw hop⟩
  | beq a b off =>
    obtain ⟨w, hw, hop, ha, hb, hoff⟩ := fields_packI (op := 4) (by decide) a b (of_decide_eq_true h)
    exact ⟨w, hw, by simpa only [ha, hb, hoff] using Spells.beq hop⟩
  | jalr a b =>
    obtain ⟨hop, ha, hb⟩ := fields_packJ (op := 5) (by decide) a b
    exact ⟨_, rfl, by simpa only [ha, hb] using Spells.jalr hop⟩
  | halt => exact ⟨_, rfl, .halt (by decide)⟩
  | noop => exact ⟨_, rfl, .noop (by decide)⟩

/-! ### The unused bits (R47). -/

/-- The head that a word's fields pack to is the word's bits 31:16. -/
theorem packHead_fields (w : Word) : packHead (opv w) (fieldA w) (fieldB w) = w &&& 0xFFFF0000#32 := by
  have hmask : w &&& 0xFFFF0000#32 = w >>> 16 <<< 16 := (BitVec.shiftLeft_ushiftRight (x := w) (n := 16)).symm
  have hlt := w.isLt
  apply BitVec.eq_of_toNat_eq
  rw [hmask, toNat_packHead (opv_lt w)]
  simp only [opv, fieldA, fieldB, bits, Fin.val_ofNat, BitVec.toNat_shiftLeft, BitVec.toNat_ushiftRight,
    Nat.shiftLeft_eq, Nat.shiftRight_eq_div_pow]
  omega

theorem packO_opv (w : Word) : packO (opv w) = w &&& 0xFFC00000#32 := by
  have hmask : w &&& 0xFFC00000#32 = w >>> 22 <<< 22 := (BitVec.shiftLeft_ushiftRight (x := w) (n := 22)).symm
  apply BitVec.eq_of_toNat_eq
  rw [hmask, packO, BitVec.toNat_shiftLeft, BitVec.toNat_shiftLeft, toNat_ushiftRight_22, BitVec.toNat_ofNat,
    Nat.mod_eq_of_lt ((opv_lt w).trans (by decide))]

theorem ofNat_fieldD (w : Word) : BitVec.ofNat 32 (fieldD w).val = w &&& 7#32 := by
  apply BitVec.eq_of_toNat_eq
  have hmask : (w &&& 7#32).toNat = w.toNat % 2 ^ 3 := Nat.and_two_pow_sub_one_eq_mod w.toNat 3
  simp only [hmask, fieldD, bits, Fin.val_ofNat, BitVec.toNat_ofNat]
  omega

theorem setWidth_offsetField (w : Word) : (offsetField w).setWidth 32 = w &&& 0xFFFF#32 := by
  apply BitVec.eq_of_toNat_eq
  have hmask : (w &&& 0xFFFF#32).toNat = w.toNat % 2 ^ 16 := Nat.and_two_pow_sub_one_eq_mod w.toNat 16
  simp only [hmask, offsetField, bits, BitVec.toNat_setWidth, BitVec.toNat_ofNat]
  omega

theorem packR_fields (w : Word) : packR (opv w) (fieldA w) (fieldB w) (fieldD w) = w &&& 0xFFFF0007#32 := by
  rw [packR, packHead_fields, ofNat_fieldD, ← BitVec.and_or_distrib_left]
  rfl

theorem packI_fields (w : Word) : packI (opv w) (fieldA w) (fieldB w) (fieldOff w) = some (w &&& 0xFFFFFFFF#32) := by
  rw [packI, fieldOff, decodeSigned_eq_toInt, encodeSigned_toInt (by decide), Option.map_some, packHead_fields,
    setWidth_offsetField, ← BitVec.and_or_distrib_left]
  rfl

/-- Encoding what a word spells keeps the bits its format uses and clears the others (R47). -/
theorem Spells.encode_eq {w : Word} {i : Instr} (h : Spells w i) : encode i = some (w &&& usedBits i) := by
  cases h with
  | add h | nand h => exact congrArg some (h ▸ packR_fields w)
  | lw h | sw h | beq h =>
    rw [usedBits, ← packI_fields, h]
    rfl
  | jalr h => exact congrArg some (h ▸ packHead_fields w)
  | halt h | noop h => exact congrArg some (h ▸ packO_opv w)

/-- The bits that matter, by the opcode value (R47). -/
def usedBitsOf : Nat → Word
  | 0 | 1 => 0xFFFF0007#32
  | 2 | 3 | 4 => 0xFFFFFFFF#32
  | 5 => 0xFFFF0000#32
  | _ => 0xFFC00000#32

theorem Spells.usedBits_eq {w : Word} {i : Instr} (h : Spells w i) : usedBits i = usedBitsOf (opv w) := by
  cases h with
  | _ h => rw [h]; rfl

/-- Every format uses bits 31:22, which hold the opcode value (R47). -/
theorem opv_eq_of_and_usedBits_eq {w v : Word} {i : Instr} (h : w &&& usedBits i = v &&& usedBits i) : opv w = opv v := by
  have hmask : usedBits i &&& 0xFFC00000#32 = 0xFFC00000#32 := by
    cases i <;> simp only [usedBits] <;> decide
  have hpack : packO (opv w) = packO (opv v) := by
    rw [packO_opv, packO_opv, ← hmask, ← BitVec.and_assoc, ← BitVec.and_assoc, h]
  have hnat := congrArg BitVec.toNat hpack
  rw [toNat_packO (opv_lt w), toNat_packO (opv_lt v)] at hnat
  omega

theorem eq_of_encode_eq {i j : Instr} (hi : i.wellFormed = true) (hj : j.wellFormed = true) (h : encode i = encode j) :
    i = j := by
  obtain ⟨w, hw, hwi⟩ := exists_encode_spells hi
  obtain ⟨v, hv, hvj⟩ := exists_encode_spells hj
  have hwv : w = v := Option.some.inj (hw.symm.trans (h.trans hv))
  exact Except.ok.inj ((decode_of_spells hwi).symm.trans (hwv ▸ decode_of_spells hvj))

/-- A word that agrees on the used bits spells the same instruction: one of the same opcode value, so with the same used
bits, and so with the same encoding. -/
theorem Spells.of_and_usedBits_eq {w v : Word} {i : Instr} (hw : Spells w i)
    (h : w &&& usedBits i = v &&& usedBits i) : Spells v i := by
  have hop : opv w = opv v := opv_eq_of_and_usedBits_eq h
  obtain ⟨j, hj⟩ := (exists_decode_eq_ok_iff v).2 (hop ▸ (exists_decode_eq_ok_iff w).1 ⟨i, decode_of_spells hw⟩)
  have hv : Spells v j := spells_of_decode hj
  have hbits : usedBits j = usedBits i := by rw [hv.usedBits_eq, hw.usedBits_eq, hop]
  have hij : i = j := eq_of_encode_eq hw.wellFormed hv.wellFormed (by rw [hw.encode_eq, hv.encode_eq, hbits, h])
  exact hij ▸ hv

end Sys2Proof

namespace Sys2Proof.Claims

open Sys2Proof.Machine

/-! ### The statements about the codec, the decoder and the encoder. -/

/-- Settles O2: the word that packs the fields has exactly these fields, and the decoder reads it by them. -/
theorem decodeEncodeAgree : Obligations.DecodeEncodeAgree := by
  intro i hi
  obtain ⟨w, hw, hspells⟩ := exists_encode_spells hi
  exact ⟨w, hw, decode_of_spells hspells⟩

/-- Settles O3: each part of the packing gives back the bits its field was read from. -/
theorem encodeOfDecodedClearsUnusedBits : Obligations.EncodeOfDecodedClearsUnusedBits :=
  fun _ _ h => (spells_of_decode h).encode_eq

/-- Settles O4: the two words spell the same instruction, and a word executes as the instruction it spells. -/
theorem unusedBitsDoNotMatter : Obligations.UnusedBitsDoNotMatter := by
  intro w v i hw hbits
  have hv : decode v = .ok i := decode_of_spells ((spells_of_decode hw).of_and_usedBits_eq hbits)
  exact ⟨hv, fun s => by rw [executeWord_of_decode hv, executeWord_of_decode hw]⟩

/-- Settles O5: both shifts, bits 31:25 and the decoder are each compared with the opcode value. -/
theorem opcodeValueIsInRangeExactlyWhenHighBitsAreZero :
    Obligations.OpcodeValueIsInRangeExactlyWhenHighBitsAreZero := by
  intro w
  rw [highBits_eq_zero_iff, toNat_ushiftRight_22, sshiftRight_22_inRange_iff, exists_decode_eq_ok_iff]
  refine ⟨.rfl, .rfl, fun h => ?_, .rfl⟩
  rw [toNat_extractLsb'_22_of_lt h, toInt_sshiftRight_22_of_lt h]
  exact ⟨rfl, rfl⟩

/-- Settles O6: the decoder gives an instruction exactly at an opcode value in 0..7, with an offset from a 16-bit field. -/
theorem decoderIsTotal : Obligations.DecoderIsTotal := by
  intro w
  simp only [ne_eq, highBits_eq_zero_iff]
  refine ⟨fun h => ?_, fun h => decode_of_le_opv (by omega)⟩
  obtain ⟨i, hi⟩ := (exists_decode_eq_ok_iff w).2 h
  exact ⟨i, hi, (spells_of_decode hi).wellFormed⟩

/-- Settles O7: the parts that the packing joins have no bit in common, so the word is their sum. -/
theorem packingPlacesEachField : Obligations.PackingPlacesEachField := by
  refine ⟨fun a b d => ?_, fun a b d => ?_, fun a b off hoff => ⟨?_, ?_, ?_⟩, fun a b => ?_, by decide, by decide⟩
  · rw [encode, Option.map_some, toNat_packR (by decide), Nat.zero_mul, Nat.zero_add]
  · rw [encode, Option.map_some, toNat_packR (by decide), Nat.one_mul]
  · exact map_toNat_packI (by decide) a b hoff
  · exact map_toNat_packI (by decide) a b hoff
  · exact map_toNat_packI (by decide) a b hoff
  · rw [encode, Option.map_some, packJ, toNat_packHead (by decide)]

/-- Settles O8: encode is the library's pattern of a signed value, and decode its signed value of a pattern. -/
theorem codecRoundTrip : Obligations.CodecRoundTrip := by
  refine fun w hw => ⟨fun v hlo hhi => ?_, fun u => ?_⟩
  · have hv : Representable v w := ⟨hw, hlo, hhi⟩
    exact ⟨_, encodeSigned_of_representable hv, by rw [decodeSigned_eq_toInt, toInt_ofInt_of_representable hv]⟩
  · rw [decodeSigned_eq_toInt, encodeSigned_toInt hw]

/-- Settles O9: the remainder modulo 2^w of a value in the signed range is the value, or 2^w more. -/
theorem codecEncodeValue : Obligations.CodecEncodeValue := by
  intro w v hw
  refine ⟨fun hv => ⟨_, encodeSigned_of_representable ⟨hw, hv⟩, ?_⟩, fun hv => if_neg fun h => hv h.2⟩
  have hpow : (2 : Int) ^ w = 2 * 2 ^ (w - 1) := (mul_pow_sub_one (by omega) 2).symm
  have hpos : (0 : Int) < 2 ^ (w - 1) := by positivity
  rw [BitVec.toNat_ofInt, Int.toNat_of_nonneg (Int.emod_nonneg _ (by positivity)), Nat.cast_pow, Nat.cast_ofNat]
  split
  · exact Int.emod_eq_of_lt (by omega) (by omega)
  · rw [← Int.add_emod_left, Int.emod_eq_of_lt (by omega) (by omega)]

/-- Settles O10: bit w-1 is the top bit, and the decoded value is the library's signed value. -/
theorem codecDecodeValue : Obligations.CodecDecodeValue := by
  intro w u hw
  obtain ⟨-, hlo, hhi⟩ := representable_toInt hw u
  refine ⟨?_, by rwa [decodeSigned_eq_toInt], by rwa [decodeSigned_eq_toInt]⟩
  rw [decodeSigned, BitVec.msb_eq_getLsbD_last]

/-- Settles O1: the nine words are evaluated. -/
theorem specWordsDecode : Obligations.SpecWordsDecode := by
  unfold Obligations.SpecWordsDecode
  decide

/-! ### The statements about execution. -/

/-- Settles O29: each meaning, and the unknown opcode, answers a next state. -/
theorem everyWordCompletes : Obligations.EveryWordCompletes :=
  ⟨fun i s => (exec_effect i s).imp fun _ h => h.1, fun w s => (executeWord_effect w s).imp fun _ h => h.1⟩

/-- Settles O21: a step at an in-bounds pc executes the fetched word, which is its instruction, on the incremented state. -/
theorem stepRunsDecodedInstruction : Obligations.StepRunsDecodedInstruction := by
  intro s i hrun hin hd
  refine ⟨?_, fun hcap => ?_⟩
  · rw [step_of_pc_inBounds hrun hin, executeWord_of_decode hd, State.advance_eq]
  · rw [← wrap32_toInt_succ]
    exact State.toInt_advance_pc hcap hin

end Sys2Proof.Claims

namespace Sys2Proof.Machine

/-! ### Numerals, literals and the image text (R67, R68, R71, R101). -/

theorem digit?_ofNat {d : Nat} (h : d < 10) : digit? (Char.ofNat (48 + d)) = some d := by
  interval_cases d <;> decide

theorem digitsFrom_digit_cons {d : Nat} (h : d < 10) (acc : Nat) (l : List Char) :
    digitsFrom acc (Char.ofNat (48 + d) :: l) = digitsFrom (acc * 10 + d) l := by
  rw [digitsFrom, digit?_ofNat h]

theorem not_mem_of_digitsFrom {c : Char} (hc : digit? c = none) {l : List Char} {acc n : Nat}
    (h : digitsFrom acc l = some n) : c ∉ l := by
  induction l generalizing acc with
  | nil => exact List.not_mem_nil
  | cons e l ih =>
    rw [digitsFrom] at h
    split at h
    · next d hd =>
      refine List.not_mem_cons_of_ne_of_not_mem ?_ (ih h)
      rintro rfl
      rw [hc] at hd
      cases hd
    · cases h

theorem parseNumeral?_of_ne_nil {l : List Char} (h : l ≠ []) : parseNumeral? l = digitsFrom 0 l := by
  cases l with
  | nil => exact absurd rfl h
  | cons c l => rfl

/-- A numeral is a literal of the same value: it has no sign, since it holds digits only. -/
theorem parseLiteral?_of_digitsFrom {l : List Char} {n : Nat} (hl : l ≠ []) (h : digitsFrom 0 l = some n) :
    parseLiteral? l = some (n : Int) := by
  cases l with
  | nil => exact absurd rfl hl
  | cons c l =>
    have hsign : c ≠ '-' := by
      rintro rfl
      exact not_mem_of_digitsFrom (by decide) h List.mem_cons_self
    rw [parseLiteral?, if_neg hsign, parseNumeral?, h, Option.map_some]

theorem parseLiteral?_minus {l : List Char} {n : Nat} (hl : l ≠ []) (h : digitsFrom 0 l = some n) :
    parseLiteral? ('-' :: l) = some (-(n : Int)) := by
  rw [parseLiteral?, if_pos rfl, parseNumeral?_of_ne_nil hl, h, Option.map_some]

/-- With enough fuel, the decimal digits of `n` in front of `l` read as `n` and then `l`. -/
theorem digitsFrom_decimalOnto {fuel n : Nat} (h : n < 10 ^ fuel) (l : List Char) :
    digitsFrom 0 (decimalOnto fuel n l) = digitsFrom n l := by
  induction fuel generalizing n l with
  | zero => rw [decimalOnto, show n = 0 by omega]
  | succ fuel ih =>
    rw [decimalOnto]
    split
    · next hn => rw [digitsFrom_digit_cons hn, Nat.zero_mul, Nat.zero_add]
    · rw [ih (by omega), digitsFrom_digit_cons (Nat.mod_lt n (by decide)), Nat.div_add_mod']

theorem decimalOnto_ne_nil {l : List Char} (hl : l ≠ []) (fuel n : Nat) : decimalOnto fuel n l ≠ [] := by
  induction fuel generalizing n l with
  | zero => exact hl
  | succ fuel ih =>
    rw [decimalOnto]
    split
    · exact List.cons_ne_nil _ _
    · exact ih (List.cons_ne_nil _ _) _

theorem decimalOnto_succ_ne_nil (fuel n : Nat) (l : List Char) : decimalOnto (fuel + 1) n l ≠ [] := by
  rw [decimalOnto]
  split
  · exact List.cons_ne_nil _ _
  · exact decimalOnto_ne_nil (List.cons_ne_nil _ _) _ _

/-- Ten digits hold the magnitude of every word. -/
theorem natAbs_toInt_lt (w : Word) : w.toInt.natAbs < 10 ^ 10 := by
  have hlo := BitVec.le_toInt w
  have hhi := BitVec.toInt_lt (x := w)
  omega

theorem digitsFrom_magnitude (w : Word) : digitsFrom 0 (decimalOnto 10 w.toInt.natAbs []) = some w.toInt.natAbs :=
  digitsFrom_decimalOnto (natAbs_toInt_lt w) []

theorem parseLiteral?_renderWord (w : Word) : parseLiteral? (renderWord w) = some w.toInt := by
  have hne : decimalOnto 10 w.toInt.natAbs [] ≠ [] := decimalOnto_succ_ne_nil 9 _ _
  rw [renderWord]
  split
  · rw [parseLiteral?_minus hne (digitsFrom_magnitude w)]
    congr 1
    omega
  · rw [parseLiteral?_of_digitsFrom hne (digitsFrom_magnitude w)]
    congr 1
    omega

theorem imageLine?_renderWord (w : Word) : imageLine? (renderWord w) = some w := by
  rw [imageLine?, parseLiteral?_renderWord, Option.bind_some, encodeSigned_toInt (by decide)]

theorem newline_not_mem_renderWord (w : Word) : '\n' ∉ renderWord w := by
  have hdigits := not_mem_of_digitsFrom (c := '\n') (by decide) (digitsFrom_magnitude w)
  rw [renderWord]
  split
  · exact List.not_mem_cons_of_ne_of_not_mem (by decide) hdigits
  · exact hdigits

theorem splitLines_append_newline {l : List Char} (hl : '\n' ∉ l) (rest : List Char) :
    splitLines (l ++ '\n' :: rest) = l :: splitLines rest := by
  induction l with
  | nil => exact if_pos rfl
  | cons c l ih =>
    rw [List.mem_cons, not_or] at hl
    obtain ⟨hc, hl⟩ := hl
    rw [List.cons_append, splitLines, if_neg (Ne.symm hc), ih hl]

/-- The lines of the persisted image are its words' texts (R71). -/
theorem splitLines_renderImage (ws : List Word) : splitLines (renderImage ws) = ws.map renderWord := by
  induction ws with
  | nil => rfl
  | cons w ws ih => rw [renderImage, splitLines_append_newline (newline_not_mem_renderWord w), ih, List.map_cons]

/-! ### The two passes (R64, R65, R71). -/

theorem pass1_error {p : Nat} {sym : Symbols} {ls : List (List Token)} {e : AsmError} (h : pass1 p sym ls = .error e) :
    e = .duplicateLabel := by
  induction ls generalizing p sym with
  | nil => cases h
  | cons l ls ih =>
    rw [pass1] at h
    split at h
    · exact ih h
    · split at h
      · cases h
        rfl
      · exact ih h

/-- Pass 1 keeps every binding it starts from. -/
theorem pass1_keeps_lookup {p a : Nat} {sym sym' : Symbols} {ls : List (List Token)} {t : Token}
    (h : pass1 p sym ls = .ok sym') (ht : sym.lookup t = some a) : sym'.lookup t = some a := by
  induction ls generalizing p sym with
  | nil =>
    cases h
    exact ht
  | cons l ls ih =>
    rw [pass1] at h
    split at h
    · exact ih h ht
    · split at h
      · cases h
      · exact ih h (by rw [List.lookup_append, ht, Option.some_or])

/-- Pass 1 binds the label of the line at index `j` to its address, `p + j` when it starts at address `p` (R64). -/
theorem pass1_binds {p j : Nat} {sym sym' : Symbols} {ls : List (List Token)} {l : List Token} {t : Token}
    (h : pass1 p sym ls = .ok sym') (hl : ls[j]? = some l) (ht : leadLabel? l = some t) :
    sym'.lookup t = some (p + j) := by
  induction ls generalizing p sym j with
  | nil => cases hl
  | cons l' ls ih =>
    rw [pass1] at h
    cases j with
    | zero =>
      cases hl
      simp only [ht] at h
      split at h
      · cases h
      · next hfresh =>
        have hnone : sym.lookup t = none := Option.not_isSome_iff_eq_none.1 hfresh
        refine pass1_keeps_lookup h ?_
        rw [List.lookup_append, hnone, Option.none_or, List.lookup_cons_self, Nat.add_zero]
    | succ j =>
      rw [show p + (j + 1) = p + 1 + j by omega]
      split at h
      · exact ih h hl
      · split at h
        · cases h
        · exact ih h hl

theorem pass2_eq_ok {sym : Symbols} {p : Nat} {ls : List (List Token)} {ws : List Word} (h : pass2 sym p ls = .ok ws) :
    ws.length = ls.length ∧
      ∀ j l, ls[j]? = some l → ∃ w, ws[j]? = some w ∧ assembleLine sym (p + j) l = .ok w := by
  induction ls generalizing p ws with
  | nil =>
    cases h
    exact ⟨rfl, fun j l hl => by cases hl⟩
  | cons l ls ih =>
    obtain ⟨w, hw, hrest⟩ := bind_eq_ok_iff.1 h
    obtain ⟨ws', hws', hcons⟩ := bind_eq_ok_iff.1 hrest
    cases hcons
    obtain ⟨hlen, hword⟩ := ih hws'
    refine ⟨congrArg Nat.succ hlen, fun j l' hl' => ?_⟩
    cases j with
    | zero =>
      cases hl'
      exact ⟨w, rfl, hw⟩
    | succ j =>
      rw [show p + (j + 1) = p + 1 + j by omega]
      exact hword j l' hl'

end Sys2Proof.Machine

namespace Sys2Proof.Claims

open Sys2Proof.Machine

/-! ### The statements about the image text and the two passes. -/

/-- Settles O49: pass 2 gives each line, in order, its word under pass 1's table. -/
theorem oneWordPerNonBlankLine : Obligations.OneWordPerNonBlankLine := by
  intro text ws h
  obtain ⟨sym, hsym, hws⟩ := bind_eq_ok_iff.1 h
  obtain ⟨hlen, hword⟩ := pass2_eq_ok hws
  exact ⟨hlen, sym, hsym, by simpa only [Nat.zero_add] using hword⟩

/-- Settles O50: the text splits into the words' decimal texts, and each reads back as its word. -/
theorem imageTextRoundTrip : Obligations.ImageTextRoundTrip := by
  intro ws
  have hread : imageLine? ∘ renderWord = some := funext imageLine?_renderWord
  rw [readImage, skippedLines, splitLines_renderImage, List.filterMap_map, hread, List.filterMap_some]
  refine ⟨rfl, List.filter_eq_nil_iff.2 fun l hl => ?_⟩
  obtain ⟨w, -, rfl⟩ := List.mem_map.1 hl
  simp [imageLine?_renderWord]

/-- Settles O52: pass 1 counts the non-blank lines from 0. -/
theorem labelAddressIsLineIndex : Obligations.LabelAddressIsLineIndex := by
  intro text sym j l t hsym hl ht
  rw [pass1_binds hsym hl ht, Nat.zero_add]

/-- Settles O51: a pass 1 that succeeded would bind the label to both line indices, and DuplicateLabel is its only error. -/
theorem duplicateLabelAborts : Obligations.DuplicateLabelAborts := by
  intro text i j li lj t hij hli hlj hti htj
  cases hpass : pass1 0 [] (programLines text) with
  | ok sym =>
    have hi := labelAddressIsLineIndex text sym i li t hpass hli hti
    have hj := labelAddressIsLineIndex text sym j lj t hpass hlj htj
    rw [hi, Option.some.injEq] at hj
    omega
  | error e => rw [assemble, hpass, pass1_error hpass]; rfl

end Sys2Proof.Claims

namespace Sys2Proof.Machine

/-! ### How an operand resolves, or fails to (R67 to R69). -/

theorem resolveOffset_of_label {sym : Symbols} {t : Token} {a : Nat} (h : sym.lookup t = some a) (p : Nat)
    (relative : Bool) :
    resolveOffset sym p relative t = checkedOffset (if relative then (a : Int) - (p + 1) else a) := by
  rw [resolveOffset, h]

theorem resolveOffset_of_literal {sym : Symbols} {t : Token} {v : Int} (h : sym.lookup t = none)
    (hv : parseLiteral? t = some v) (p : Nat) (relative : Bool) : resolveOffset sym p relative t = checkedOffset v := by
  simp only [resolveOffset, h, hv]

theorem resolveOffset_of_neither {sym : Symbols} {t : Token} (h : sym.lookup t = none) (hv : parseLiteral? t = none)
    (p : Nat) (relative : Bool) : resolveOffset sym p relative t = .error .undefinedSymbolOrBadLiteral := by
  simp only [resolveOffset, h, hv]

theorem resolveFill_of_unrepresentable {sym : Symbols} {t : Token} {v : Int} (h : sym.lookup t = none)
    (hv : parseLiteral? t = some v) (hr : ¬ Representable v 32) :
    resolveFill sym t = .error .undefinedSymbolOrBadLiteral := by
  have henc : encodeSigned v 32 = none := if_neg hr
  simp [resolveFill, h, hv, henc]

theorem resolveFill_of_neither {sym : Symbols} {t : Token} (h : sym.lookup t = none) (hv : parseLiteral? t = none) :
    resolveFill sym t = .error .undefinedSymbolOrBadLiteral := by
  simp [resolveFill, h, hv]

/-- A computation that starts with a register operand fails with BadRegisterOperand where the operand is bad, or where the
rest fails so for every register (R67). -/
theorem registerOperand_bind_eq_error {t : Token} {f : Reg → Except AsmError Word}
    (h : (∀ r : Reg, parseNumeral? t ≠ some r.val) ∨ ∀ r, f r = .error .badRegisterOperand) :
    (registerOperand t >>= f) = .error .badRegisterOperand := by
  obtain ⟨r, hr⟩ | hbad := registerOperand_cases t
  · obtain ht | hf := h
    · exact absurd ((registerOperand_eq_ok_iff t r).1 hr) (ht r)
    · rw [hr]
      exact hf r
  · rw [hbad]
    rfl

/-! ### Lines without a keyword (R66). -/

theorem assembleLine_label_only {label : Token} (h : keyword? label = none) (sym : Symbols) (p : Nat) :
    assembleLine sym p [label] = .error .invalidOpcode := by
  simp [assembleLine, withoutLabel, leadLabel?, h]

theorem assembleLine_no_keyword {label k : Token} (h : keyword? label = none) (hk : keyword? k = none) (sym : Symbols)
    (p : Nat) (ops : List Token) : assembleLine sym p (label :: k :: ops) = .error .invalidOpcode := by
  simp [assembleLine, withoutLabel, leadLabel?, h, hk]

end Sys2Proof.Machine

namespace Sys2Proof.Claims

open Sys2Proof.Machine

/-! ### The statements' keywords and lines in the assembler's terms. -/

/-- The mnemonic of an instruction, as the assembler recognises it (R46, R66). -/
def mnemonic : Instr → Mnemonic
  | .add _ _ _ => .add
  | .nand _ _ _ => .nand
  | .lw _ _ _ => .lw
  | .sw _ _ _ => .sw
  | .beq _ _ _ => .beq
  | .jalr _ _ => .jalr
  | .halt => .halt
  | .noop => .noop

theorem mnemonicOf_eq_token (i : Instr) : mnemonicOf i = (Keyword.op (mnemonic i)).token := by
  cases i <;> rfl

theorem fillWord_eq_token : fillWord = Keyword.fill.token := rfl

theorem keyword?_token (kw : Keyword) : keyword? kw.token = some kw := (keyword?_eq_some_iff _ kw).2 rfl

theorem mem_keywordTokens_iff (t : Token) : t ∈ keywordTokens ↔ ∃ kw : Keyword, t = kw.token := by
  constructor
  · intro h
    simp only [keywordTokens, List.mem_cons, List.not_mem_nil, or_false] at h
    obtain h | h | h | h | h | h | h | h | h := h
    exacts [⟨.op .add, h⟩, ⟨.op .nand, h⟩, ⟨.op .lw, h⟩, ⟨.op .sw, h⟩, ⟨.op .beq, h⟩, ⟨.op .jalr, h⟩, ⟨.op .halt, h⟩,
      ⟨.op .noop, h⟩, ⟨.fill, h⟩]
  · rintro ⟨(_ | _ | _ | _ | _ | _ | _ | _) | _, rfl⟩ <;> decide

theorem keyword?_eq_none_iff (t : Token) : keyword? t = none ↔ t ∉ keywordTokens := by
  simp only [mem_keywordTokens_iff, Option.eq_none_iff_forall_ne_some, ne_eq, keyword?_eq_some_iff, not_exists]

/-- A line of a keyword assembles as that keyword's word, with or without a label (R66). -/
theorem assembleLine_of_lineOf {kw : Keyword} {ops l : List Token} (h : LineOf kw.token ops l) (sym : Symbols) (p : Nat) :
    assembleLine sym p l = keywordWord sym p kw ops := by
  obtain rfl | ⟨label, hlabel, rfl⟩ := h
  · exact assembleLine_of_keyword (keyword?_token kw) sym p ops
  · exact assembleLine_of_label ((keyword?_eq_none_iff label).2 hlabel) (keyword?_token kw) sym p ops

/-- A line that assembles is the line of some keyword (R66). -/
theorem exists_lineOf_of_assembleLine {sym : Symbols} {p : Nat} {l : List Token} {w : Word}
    (h : assembleLine sym p l = .ok w) : ∃ kw ops, LineOf (Keyword.token kw) ops l ∧ keywordWord sym p kw ops = .ok w := by
  obtain ⟨k, kw, ops, hk, hw, hl⟩ := assembleLine_eq_ok h
  obtain rfl := (keyword?_eq_some_iff k kw).1 hk
  refine ⟨kw, ops, hl.imp_right fun ⟨label, hlabel, hcons⟩ => ?_, hw⟩
  exact ⟨label, (keyword?_eq_none_iff label).1 hlabel, hcons⟩

/-! ### Operands that spell an instruction (R63, R67, R68). -/

theorem OperandsSpell.wellFormed {sym : Symbols} {p : Nat} {ops : List Token} {i : Instr}
    (h : OperandsSpell sym p ops i) : i.wellFormed = true := by
  cases i with
  | lw | sw | beq =>
    obtain ⟨-, -, -, -, -, -, -, hrange⟩ := h
    exact decide_eq_true hrange
  | add | nand | jalr | halt | noop => rfl

theorem keywordWord_of_operandsSpell {sym : Symbols} {p : Nat} {ops : List Token} {i : Instr} {w : Word}
    (h : OperandsSpell sym p ops i) (hw : encode i = some w) : keywordWord sym p (.op (mnemonic i)) ops = .ok w := by
  cases i with
  | add a b d | nand a b d =>
    obtain ⟨ta, tb, td, hops, ha, hb, hd⟩ := h
    exact (operandsR_eq_ok_iff _ _ _).2 ⟨ta, tb, td, a, b, d, hops, (registerOperand_eq_ok_iff ta a).2 ha,
      (registerOperand_eq_ok_iff tb b).2 hb, (registerOperand_eq_ok_iff td d).2 hd, hw⟩
  | lw a b off | sw a b off | beq a b off =>
    obtain ⟨ta, tb, tv, hops, ha, hb, hoff⟩ := h
    exact (operandsI_eq_ok_iff _ _ _ _ _ _).2 ⟨ta, tb, tv, a, b, off, hops, (registerOperand_eq_ok_iff ta a).2 ha,
      (registerOperand_eq_ok_iff tb b).2 hb, (resolveOffset_eq_ok_iff sym p _ tv off).2 hoff, hw⟩
  | jalr a b =>
    obtain ⟨ta, tb, hops, ha, hb⟩ := h
    exact (operandsJ_eq_ok_iff _ _ _).2 ⟨ta, tb, a, b, hops, (registerOperand_eq_ok_iff ta a).2 ha,
      (registerOperand_eq_ok_iff tb b).2 hb, hw⟩
  | halt | noop => exact (operandsO_eq_ok_iff _ _ _).2 ⟨h, hw⟩

theorem exists_operandsSpell_of_keywordWord {sym : Symbols} {p : Nat} {ops : List Token} {m : Mnemonic} {w : Word}
    (h : keywordWord sym p (.op m) ops = .ok w) :
    ∃ i, mnemonic i = m ∧ OperandsSpell sym p ops i ∧ encode i = some w := by
  cases m with
  | add | nand =>
    obtain ⟨ta, tb, td, a, b, d, hops, ha, hb, hd, hw⟩ := (operandsR_eq_ok_iff _ _ _).1 h
    refine ⟨_, ?_, ?_, hw⟩
    · rfl
    · exact ⟨ta, tb, td, hops, (registerOperand_eq_ok_iff ta a).1 ha, (registerOperand_eq_ok_iff tb b).1 hb,
        (registerOperand_eq_ok_iff td d).1 hd⟩
  | lw | sw | beq =>
    obtain ⟨ta, tb, tv, a, b, off, hops, ha, hb, hoff, hw⟩ := (operandsI_eq_ok_iff _ _ _ _ _ _).1 h
    refine ⟨_, ?_, ?_, hw⟩
    · rfl
    · exact ⟨ta, tb, tv, hops, (registerOperand_eq_ok_iff ta a).1 ha, (registerOperand_eq_ok_iff tb b).1 hb,
        (resolveOffset_eq_ok_iff sym p _ tv off).1 hoff⟩
  | jalr =>
    obtain ⟨ta, tb, a, b, hops, ha, hb, hw⟩ := (operandsJ_eq_ok_iff _ _ _).1 h
    refine ⟨_, ?_, ?_, hw⟩
    · rfl
    · exact ⟨ta, tb, hops, (registerOperand_eq_ok_iff ta a).1 ha, (registerOperand_eq_ok_iff tb b).1 hb⟩
  | halt | noop =>
    obtain ⟨hops, hw⟩ := (operandsO_eq_ok_iff _ _ _).1 h
    refine ⟨_, ?_, ?_, hw⟩
    · rfl
    · exact hops

/-! ### Keywords with bad operands (R63, R67). -/

theorem keywordWord_of_length_ne {kw : Keyword} {ops : List Token} (h : ops.length ≠ operandCountOf kw.token)
    (sym : Symbols) (p : Nat) : keywordWord sym p kw ops = .error .operandCount := by
  cases kw with
  | fill =>
    simp only [keywordWord, operandsFill]
    split
    · exact absurd rfl h
    · rfl
  | op m =>
    cases m with
    | _ =>
      simp only [keywordWord, operandsR, operandsI, operandsJ, operandsO]
      split
      · exact absurd rfl h
      · rfl

theorem operandsR_of_spellsNoReg {ta tb td : Token} (h : SpellsNoReg ta ∨ SpellsNoReg tb ∨ SpellsNoReg td)
    (mk : Reg → Reg → Reg → Instr) : operandsR mk [ta, tb, td] = .error .badRegisterOperand :=
  registerOperand_bind_eq_error <| h.imp_right fun h _ =>
    registerOperand_bind_eq_error <| h.imp_right fun h _ => registerOperand_bind_eq_error (.inl h)

theorem operandsI_of_spellsNoReg {ta tb : Token} (h : SpellsNoReg ta ∨ SpellsNoReg tb) (mk : Reg → Reg → Int → Instr)
    (sym : Symbols) (p : Nat) (relative : Bool) (tv : Token) :
    operandsI mk sym p relative [ta, tb, tv] = .error .badRegisterOperand :=
  registerOperand_bind_eq_error <| h.imp_right fun h _ => registerOperand_bind_eq_error (.inl h)

theorem operandsJ_of_spellsNoReg {ta tb : Token} (h : SpellsNoReg ta ∨ SpellsNoReg tb) (mk : Reg → Reg → Instr) :
    operandsJ mk [ta, tb] = .error .badRegisterOperand :=
  registerOperand_bind_eq_error <| h.imp_right fun h _ => registerOperand_bind_eq_error (.inl h)

/-! ### The statements about operands and lines. -/

/-- Settles O54: label first, then literal, then the range check. -/
theorem offsetOperandResolution : Obligations.OffsetOperandResolution := by
  intro sym p rel t
  refine ⟨fun a v h hv => ?_, fun v h hv => resolveOffset_of_literal h hv p rel,
    fun h hv => resolveOffset_of_neither h hv p rel⟩
  rw [resolveOffset_of_label h, ← hv]
  rfl

/-- Settles O53: the offset is the label's distance from p + 1, and the sum with p + 1 is exact under R6's bound. -/
theorem beqToLabelLandsOnLabel : Obligations.BeqToLabelLandsOnLabel := by
  intro sym p a t off x y s hlabel hres hcap hp hpc hreg
  rw [resolveOffset_of_label hlabel, checkedOffset_eq_ok_iff, if_pos rfl] at hres
  obtain ⟨hoff, hlo, hhi⟩ := hres
  have htarget : branchTarget s off = a := by
    rw [branchTarget]
    omega
  have hmax : s.memcap ≤ 2147450880 := hcap.2
  refine ⟨_, exec_beq_eq hreg off, ?_⟩
  rw [State.setPc_pc, htarget, toInt_wrap32_of_range (by omega) (by omega)]

/-- Settles O55: the keyword of the line and its operand list decide the instruction, in both directions. -/
theorem assembledInstructionDecodesBack : Obligations.AssembledInstructionDecodesBack := by
  refine fun sym p l => ⟨fun i ops hl hops => ?_, fun w hw => ?_⟩
  · have hwf := hops.wellFormed
    obtain ⟨w, henc, hdec⟩ := decodeEncodeAgree i hwf
    rw [mnemonicOf_eq_token] at hl
    refine ⟨hwf, w, ?_, henc, hdec, (opv_lt_iff w).1 ((exists_decode_eq_ok_iff w).1 ⟨i, hdec⟩)⟩
    rw [assembleLine_of_lineOf hl, keywordWord_of_operandsSpell hops henc]
  · obtain ⟨kw, ops, hl, hkw⟩ := exists_lineOf_of_assembleLine hw
    cases kw with
    | op m =>
      obtain ⟨i, rfl, hops, henc⟩ := exists_operandsSpell_of_keywordWord hkw
      exact .inl ⟨i, ops, mnemonicOf_eq_token i ▸ hl, hops, henc⟩
    | fill => exact .inr ⟨ops, fillWord_eq_token ▸ hl⟩

/-- Settles O56: the line's word is its resolved operand, the codec's 32-bit pattern of the operand's value. -/
theorem fillLineGivesItsValue : Obligations.FillLineGivesItsValue := by
  intro sym p l t hl
  rw [fillWord_eq_token] at hl
  have hword : assembleLine sym p l = resolveFill sym t := assembleLine_of_lineOf hl sym p
  rw [hword]
  refine ⟨fun v hv hlo hhi => ?_, fun v h hv hr => resolveFill_of_unrepresentable h hv fun hrep => hr hrep.2,
    resolveFill_of_neither, fun w hw => ?_⟩
  · have hrep : Representable v 32 := ⟨by decide, hlo, hhi⟩
    have henc := encodeSigned_of_representable hrep
    exact ⟨_, (resolveFill_eq_ok_iff sym t _).2 ⟨v, hv, henc⟩, henc, toInt_ofInt_of_representable hrep⟩
  · obtain ⟨v, hv, henc⟩ := (resolveFill_eq_ok_iff sym t w).1 hw
    obtain ⟨hrep, rfl⟩ := encodeSigned_eq_some_iff.1 henc
    rwa [toInt_ofInt_of_representable hrep]

/-- Settles O57: the keyword is checked first, then the operand count, then the registers from left to right. -/
theorem rejectedLineNamesItsError : Obligations.RejectedLineNamesItsError := by
  refine fun sym p => ⟨fun label h => ?_, fun label k ops h hk => ?_, fun k ops l hk hl hlen => ?_, ?_, ?_, ?_⟩
  · exact assembleLine_label_only ((keyword?_eq_none_iff label).2 h) sym p
  · exact assembleLine_no_keyword ((keyword?_eq_none_iff label).2 h) ((keyword?_eq_none_iff k).2 hk) sym p ops
  · obtain ⟨kw, rfl⟩ := (mem_keywordTokens_iff k).1 hk
    rw [assembleLine_of_lineOf hl, keywordWord_of_length_ne hlen]
  · rintro k ta tb td l (rfl | rfl) hl hbad
    · exact (assembleLine_of_lineOf (kw := .op .add) hl sym p).trans (operandsR_of_spellsNoReg hbad _)
    · exact (assembleLine_of_lineOf (kw := .op .nand) hl sym p).trans (operandsR_of_spellsNoReg hbad _)
  · intro ta tb l hl hbad
    exact (assembleLine_of_lineOf (kw := .op .jalr) hl sym p).trans (operandsJ_of_spellsNoReg hbad _)
  · rintro k ta tb tv off l (rfl | rfl | rfl) hl hbad -
    · exact (assembleLine_of_lineOf (kw := .op .lw) hl sym p).trans (operandsI_of_spellsNoReg hbad _ sym p _ tv)
    · exact (assembleLine_of_lineOf (kw := .op .sw) hl sym p).trans (operandsI_of_spellsNoReg hbad _ sym p _ tv)
    · exact (assembleLine_of_lineOf (kw := .op .beq) hl sym p).trans (operandsI_of_spellsNoReg hbad _ sym p _ tv)

end Sys2Proof.Claims
end

section
/-! PROOFS of the family 40_alu. The two register-triple instructions, add and nand. -/

namespace Sys2Proof

/-- The opcode value is the number in the library's slice of bits 31:22 (R44). -/
theorem opv_eq_of_extractLsb' {w : Word} {op : BitVec 10} (h : w.extractLsb' 22 10 = op) : opv w = op.toNat :=
  h ▸ (Machine.toNat_sigOpv w).symm

theorem decode_add_of_opv {w : Word} (h : opv w = 0) :
    decode w = .ok (.add (Claims.regA w) (Claims.regB w) (Claims.regD w)) := by
  rw [decode_of_spells (.add h), fieldA_eq, fieldB_eq, fieldD_eq]

theorem decode_nand_of_opv {w : Word} (h : opv w = 1) :
    decode w = .ok (.nand (Claims.regA w) (Claims.regB w) (Claims.regD w)) := by
  rw [decode_of_spells (.nand h), fieldA_eq, fieldB_eq, fieldD_eq]

end Sys2Proof

namespace Sys2Proof.Machine

/-- The ALU's sum is congruent to the exact sum modulo 2^32 (R74). -/
theorem dvd_toInt_aluAdd_sub (x y : Word) : (2 ^ 32 : Int) ∣ (aluAdd x y).toInt - (x.toInt + y.toInt) :=
  dvd_toInt_wrap32_sub (x.toInt + y.toInt)

/-- Each of the 32 bits of the ALU's NAND is the NAND of the operands' bits (R75). -/
theorem getLsbD_aluNand (x y : Word) {i : Nat} (hi : i < 32) :
    (aluNand x y).getLsbD i = !(x.getLsbD i && y.getLsbD i) := by
  rw [aluNand, BitVec.getLsbD_not, BitVec.getLsbD_and, decide_eq_true hi, Bool.true_and]

theorem exec_add (a b d : Reg) (s : State) :
    exec (.add a b d) s = .next (s.setReg d (aluAdd (s.reg a) (s.reg b))) := rfl

theorem exec_nand (a b d : Reg) (s : State) :
    exec (.nand a b d) s = .next (s.setReg d (aluNand (s.reg a) (s.reg b))) := rfl

theorem State.reg_setReg_same (s : State) (d : Reg) (v : Word) : (s.setReg d v).reg d = v := by
  rw [State.reg_setReg, if_pos rfl]

end Sys2Proof.Machine

namespace Sys2Proof.Claims

open Sys2Proof.Machine

/-- The frame of one register write: everything but its destination stays (R9, R11). -/
theorem setReg_frame (s : State) (d : Reg) (v : Word) :
    KeepsRegsBut d s (s.setReg d v) ∧ KeepsMem s (s.setReg d v) ∧ (s.setReg d v).pc = s.pc ∧
      (s.setReg d v).status = s.status ∧ (s.setReg d v).event = s.event ∧ KeepsConfig s (s.setReg d v) := by
  refine ⟨fun r hr => ?_, State.memRead_setReg s d v, rfl, rfl, rfl, rfl, rfl⟩
  rw [State.reg_setReg, if_neg hr]

/-- Settles O11: add is one register write, of a sum that wraps modulo 2^32. -/
theorem addWritesWrappedSum : Obligations.AddWritesWrappedSum := by
  refine ⟨fun w hw => decode_add_of_opv (opv_eq_of_extractLsb' hw), fun a b d s => ?_⟩
  refine ⟨_, exec_add a b d s, ?_, setReg_frame s d _⟩
  rw [State.reg_setReg_same]
  exact dvd_toInt_aluAdd_sub (s.reg a) (s.reg b)

/-- Settles O12: nand is one register write, of a word that negates the conjunction bit by bit. -/
theorem nandWritesBitwiseNotAnd : Obligations.NandWritesBitwiseNotAnd := by
  refine ⟨fun w hw => decode_nand_of_opv (opv_eq_of_extractLsb' hw), fun a b d s => ?_⟩
  refine ⟨_, exec_nand a b d s, fun i hi => ?_, setReg_frame s d _⟩
  rw [State.reg_setReg_same]
  exact getLsbD_aluNand (s.reg a) (s.reg b) hi

end Sys2Proof.Claims
end

section
/-! PROOFS of the family 41_loadstore. The base-plus-offset address, and the two instructions that use it, lw and sw. -/

namespace Sys2Proof

theorem decode_lw_of_opv {w : Word} (h : opv w = 2) :
    decode w = .ok (.lw (Claims.regA w) (Claims.regB w) (Claims.offset w)) := by
  rw [decode_of_spells (.lw h), fieldA_eq, fieldB_eq, fieldOff_eq]

theorem decode_sw_of_opv {w : Word} (h : opv w = 3) :
    decode w = .ok (.sw (Claims.regA w) (Claims.regB w) (Claims.offset w)) := by
  rw [decode_of_spells (.sw h), fieldA_eq, fieldB_eq, fieldOff_eq]

end Sys2Proof

namespace Sys2Proof.Machine

/-- The exact sum of a signed word and an offset leaves the 32-bit range by at most 2^15 (R77). -/
theorem effectiveAddress_range (s : State) (a : Reg) {off : Int} (hoff : OffsetInRange off) :
    -2147483648 - 32768 ≤ effectiveAddress s a off ∧ effectiveAddress s a off ≤ 2147483647 + 32767 := by
  obtain ⟨hlo, hhi⟩ := hoff
  have hreg := BitVec.le_toInt (s.reg a)
  have hreg' := BitVec.toInt_lt (x := s.reg a)
  unfold effectiveAddress
  omega

theorem wrap32_effectiveAddress (s : State) (a : Reg) (off : Int) :
    wrap32 (effectiveAddress s a off) = s.reg a + wrap32 off := by
  rw [effectiveAddress, wrap32_add, wrap32_toInt]

/-- A snapshot's words are those below numLoaded, and nothing else of the state (R96). -/
theorem State.snapshot_words_congr {s t : State} (hnum : t.numLoaded = s.numLoaded)
    (hmem : ∀ n < s.numLoaded, t.memRead n = s.memRead n) : t.snapshot.words = s.snapshot.words := by
  simp only [State.snapshot, hnum]
  exact List.map_congr_left fun n hn => by rw [hmem n (List.mem_range.1 hn)]

end Sys2Proof.Machine

namespace Sys2Proof.Claims

open Sys2Proof.Machine

/-- Under R6's bound a sum that wraps is 2^32 away from an in-bounds address, further than an offset can carry it: where the
exact or the wrapped sum is in bounds, nothing wrapped (R77). -/
theorem toInt_wrap32_of_inBounds {s : State} (hcap : s.CapOk) {ea : Int}
    (hrange : -2147483648 - 32768 ≤ ea ∧ ea ≤ 2147483647 + 32767)
    (h : InBounds s ea ∨ InBounds s (wrap32 ea).toInt) : (wrap32 ea).toInt = ea := by
  have hmax : s.memcap ≤ 2147450880 := hcap.2
  obtain hin | hin := h
  · exact toInt_wrap32_of_range (by omega) (by omega)
  · obtain ⟨k, hk⟩ := dvd_toInt_wrap32_sub ea
    omega

/-- The frame of an event: everything but the event output stays (R87, R88). -/
theorem raise_frame (s : State) (e : Event) :
    KeepsRegs s (s.raise e) ∧ KeepsMem s (s.raise e) ∧ (s.raise e).pc = s.pc ∧ (s.raise e).status = s.status ∧
      KeepsConfig s (s.raise e) :=
  ⟨s.reg_raise e, s.memRead_raise e, rfl, rfl, rfl, rfl⟩

/-- The frame of one memory write: everything but the word at its address stays (R9, R28). -/
theorem memWrite_frame (s : State) (n : Nat) (v : Word) :
    KeepsMemBut n s (s.memWrite n v) ∧ (s.memWrite n v).event = s.event ∧ KeepsRegs s (s.memWrite n v) ∧
      (s.memWrite n v).pc = s.pc ∧ (s.memWrite n v).status = s.status ∧ KeepsConfig s (s.memWrite n v) :=
  ⟨fun _ hk => State.memRead_memWrite_of_ne s v hk, rfl, s.reg_memWrite n v, rfl, rfl, rfl, rfl⟩

/-! ### The statements. -/

/-- Settles O13: lw is one register write in bounds and one event out of bounds. -/
theorem lwLoadsOrReports : Obligations.LwLoadsOrReports := by
  refine ⟨fun w hw => decode_lw_of_opv (opv_eq_of_extractLsb' hw), fun a b off s => ?_⟩
  by_cases hin : InBounds s (effectiveAddress s a off)
  · obtain ⟨hregs, hmem, hpc, hstatus, hevent, hconfig⟩ :=
      setReg_frame s b (s.memRead (effectiveAddress s a off).toNat)
    exact ⟨_, exec_lw_inBounds hin b, fun _ => ⟨State.reg_setReg_same s b _, hevent⟩, fun hout => absurd hin hout,
      hregs, hmem, hpc, hstatus, hconfig⟩
  · obtain ⟨hregs, hrest⟩ := raise_frame s (.memOutOfBounds (effectiveAddress s a off))
    exact ⟨_, exec_lw_outOfBounds hin b, fun h => absurd h hin, fun _ => ⟨hregs b, rfl⟩, fun r _ => hregs r, hrest⟩

/-- Settles O14: sw is one memory write in bounds and one event out of bounds. -/
theorem swStoresOrReports : Obligations.SwStoresOrReports := by
  refine ⟨fun w hw => decode_sw_of_opv (opv_eq_of_extractLsb' hw), fun a b off s hwf => ?_⟩
  by_cases hin : InBounds s (effectiveAddress s a off)
  · obtain ⟨hmem, hevent, hrest⟩ := memWrite_frame s (effectiveAddress s a off).toNat (s.reg b)
    exact ⟨_, exec_sw_inBounds hin b, fun _ => ⟨memRead_memWrite_same hwf _ _, hmem, hevent⟩,
      fun hout => absurd hin hout, hrest⟩
  · obtain ⟨hregs, hmem, hrest⟩ := raise_frame s (.memOutOfBounds (effectiveAddress s a off))
    exact ⟨_, exec_sw_outOfBounds hin b, fun h => absurd h hin, fun _ => ⟨hmem, rfl⟩, hregs, hrest⟩

/-- Settles O15: the wrapped sum equals the exact one as soon as either is in bounds, so the check cannot tell them apart. -/
theorem effectiveAddressIsExactAndWrapImmaterial : Obligations.EffectiveAddressIsExactAndWrapImmaterial := by
  intro s a off hcap hoff
  have hrange := effectiveAddress_range s a hoff
  have hexact := toInt_wrap32_of_inBounds hcap hrange
  rw [wrap32_effectiveAddress] at hexact
  exact ⟨rfl, hrange.1, hrange.2, ⟨fun h => (hexact (.inl h)).symm ▸ h, fun h => hexact (.inr h) ▸ h⟩,
    fun h => hexact (.inl h)⟩

/-- Settles O47: every word the snapshot shows lies below numLoaded, so at another address than the store's. -/
theorem storeAboveLoadedIsNotShown : Obligations.StoreAboveLoadedIsNotShown := by
  intro a b off s hin habove
  refine ⟨_, exec_sw_inBounds hin b, State.snapshot_words_congr rfl fun n hn => ?_⟩
  exact State.memRead_memWrite_of_ne s (s.reg b) (by omega)

end Sys2Proof.Claims
end

section
/-! PROOFS of the family 42_control. The conditional branch beq and the jump-and-link jalr. -/

namespace Sys2Proof

theorem decode_beq_of_opv {w : Word} (h : opv w = 4) :
    decode w = .ok (.beq (Claims.regA w) (Claims.regB w) (Claims.offset w)) := by
  rw [decode_of_spells (.beq h), fieldA_eq, fieldB_eq, fieldOff_eq]

theorem decode_jalr_of_opv {w : Word} (h : opv w = 5) :
    decode w = .ok (.jalr (Claims.regA w) (Claims.regB w)) := by
  rw [decode_of_spells (.jalr h), fieldA_eq, fieldB_eq]

end Sys2Proof

namespace Sys2Proof.Machine

/-- At the pc values a fetch leaves, R6's bound keeps the exact branch target in the 32-bit range, so storing it loses
nothing (R13, R81). -/
theorem toInt_wrap32_branchTarget {s : State} (hcap : s.CapOk) {off : Int} (hoff : OffsetInRange off)
    (hlo : 1 ≤ s.pc.toInt) (hhi : s.pc.toInt ≤ s.memcap) : (wrap32 (branchTarget s off)).toInt = s.pc.toInt + off := by
  have hmax : s.memcap ≤ 2147450880 := hcap.2
  obtain ⟨hofflo, hoffhi⟩ := hoff
  rw [branchTarget, toInt_wrap32_of_range (by omega) (by omega)]

theorem exec_jalr (a b : Reg) (s : State) :
    exec (.jalr a b) s = .next ((s.setReg b s.pc).setPc ((s.setReg b s.pc).reg a)) := rfl

end Sys2Proof.Machine

namespace Sys2Proof.Claims

open Sys2Proof.Machine

/-- The frame of a pc write: everything but the pc stays (R9, R13). -/
theorem setPc_frame (s : State) (v : Word) :
    KeepsRegs s (s.setPc v) ∧ KeepsMem s (s.setPc v) ∧ (s.setPc v).status = s.status ∧
      (s.setPc v).event = s.event ∧ KeepsConfig s (s.setPc v) :=
  ⟨s.reg_setPc v, s.memRead_setPc v, rfl, rfl, rfl, rfl⟩

/-- Settles O16: beq writes the pc, with an exact target, where the registers are equal, and does nothing where not. -/
theorem beqBranchesExactly : Obligations.BeqBranchesExactly := by
  refine ⟨fun w hw => decode_beq_of_opv (opv_eq_of_extractLsb' hw), fun a b off s hcap hoff hlo hhi => ?_⟩
  by_cases heq : s.reg a = s.reg b
  · exact ⟨_, exec_beq_eq heq off, fun _ => toInt_wrap32_branchTarget hcap hoff hlo hhi, fun hne => absurd heq hne,
      setPc_frame s _⟩
  · exact ⟨s, exec_beq_ne heq off, fun h => absurd h heq, fun _ => rfl, fun _ => rfl, fun _ => rfl, rfl, rfl, rfl, rfl⟩

/-- Settles O18: jalr is one register write and then one pc write, whose value is read after the first. -/
theorem jalrLinksThenJumps : Obligations.JalrLinksThenJumps := by
  refine ⟨fun w hw => decode_jalr_of_opv (opv_eq_of_extractLsb' hw), fun a b s => ?_⟩
  obtain ⟨hregs, hmem, -, hstatus, hevent, hconfig⟩ := setReg_frame s b s.pc
  exact ⟨_, exec_jalr a b s, State.reg_setReg_same s b s.pc, State.reg_setReg s b s.pc a, rfl,
    hregs, hmem, hstatus, hevent, hconfig⟩

end Sys2Proof.Claims
end

section
/-! PROOFS of the family 43_system. The instructions halt and noop, and the unknown opcode. -/

namespace Sys2Proof

theorem decode_halt_of_opv {w : Word} (h : opv w = 6) : decode w = .ok .halt := decode_of_spells (.halt h)

theorem decode_noop_of_opv {w : Word} (h : opv w = 7) : decode w = .ok .noop := decode_of_spells (.noop h)

end Sys2Proof

namespace Sys2Proof.Machine

theorem exec_halt (s : State) : exec .halt s = .next ((s.stop .halted).raise (.halt s.pc)) := rfl

theorem exec_noop (s : State) : exec .noop s = .next s := rfl

/-- A word whose opcode value lies outside 0..7 executes as one event, which carries the word (R85, R90). -/
theorem executeWord_of_le_opv {w : Word} (h : 8 ≤ opv w) (s : State) :
    executeWord w s = .next (s.raise (.unknownOpcode w)) := by
  rw [executeWord, decode_of_le_opv h]
  rfl

/-- A block that is not Running has no step (R98). -/
theorem step_ne_next_of_status_ne {s : State} (h : s.status ≠ .running) (u : State) : step s ≠ .next u := by
  intro hstep
  obtain ⟨hrun, -⟩ := step_eq_next hstep
  exact h hrun

end Sys2Proof.Machine

namespace Sys2Proof.Claims

open Sys2Proof.Machine

/-- The frame of an end of the run: everything but the status and the event output stays (R87, R88). -/
theorem stop_raise_frame (s : State) (x : RunStatus) (e : Event) :
    ((s.stop x).raise e).pc = s.pc ∧ KeepsRegs s ((s.stop x).raise e) ∧ KeepsMem s ((s.stop x).raise e) ∧
      KeepsConfig s ((s.stop x).raise e) := by
  obtain ⟨hregs, hmem, hpc, -, hconfig⟩ := raise_frame (s.stop x) e
  exact ⟨hpc, hregs, hmem, hconfig⟩

/-- The frame of the increment: everything but the pc and the event output stays (R45). -/
theorem advance_frame (s : State) :
    KeepsRegs s s.advance ∧ KeepsMem s s.advance ∧ s.advance.status = s.status ∧ KeepsConfig s s.advance :=
  ⟨s.reg_advance, s.memRead_advance, rfl, rfl, rfl⟩

/-- Settles O22: the word executes as one event on the incremented state, and the increment of an in-bounds pc is exact. -/
theorem unknownOpcodeIsReportedAndSkipped : Obligations.UnknownOpcodeIsReportedAndSkipped := by
  intro s hcap hrun hin hbits
  have hopv : 8 ≤ opv (fetched s) := not_lt.1 (mt (highBits_eq_zero_iff _).2 hbits)
  have hstep : step s = .next (s.advance.raise (.unknownOpcode (fetched s))) := by
    rw [step_of_pc_inBounds hrun hin, executeWord_of_le_opv hopv]
  obtain ⟨hregs, hmem, hstatus, hconfig⟩ := advance_frame s
  exact ⟨_, hstep, rfl, State.toInt_advance_pc hcap hin, hstatus.trans hrun, hregs, hmem, hconfig⟩

/-- Settles O19: halt is the status Halted and one event, and a step is answered only by a Running block. -/
theorem haltEndsTheRun : Obligations.HaltEndsTheRun := by
  refine ⟨fun w hw => decode_halt_of_opv (opv_eq_of_extractLsb' hw), fun s => ?_⟩
  have hend : ((s.stop .halted).raise (.halt s.pc)).status ≠ .running := by simp
  obtain ⟨hpc, hregs, hmem, hconfig⟩ := stop_raise_frame s .halted (.halt s.pc)
  exact ⟨_, exec_halt s, rfl, rfl, hpc, hregs, hmem, hconfig, step_ne_next_of_status_ne hend⟩

/-- Settles O20: noop answers the state it is given. -/
theorem noopDoesNothing : Obligations.NoopDoesNothing :=
  ⟨fun _ hw => decode_noop_of_opv (opv_eq_of_extractLsb' hw),
    fun s => ⟨s, exec_noop s, rfl, fun _ => rfl, fun _ => rfl, rfl, rfl, rfl, rfl⟩⟩

end Sys2Proof.Claims
end

section
/-! PROOFS of the family 60_exceptions. What a step reports and why, the failed fetches, and the end of a run. -/

namespace Sys2Proof.Machine

/-! ### The failed fetches and the terminal statuses (R91, R92, R98). -/

theorem step_of_pc_neg {s : State} (hrun : s.status = .running) (hneg : s.pc.toInt < 0) :
    step s = .next ((s.stop .negativePcFault).raise (.negativePc s.pc)) := by
  rw [step_running hrun]
  rcases cycle_cases s with ⟨-, hc⟩ | ⟨hbig, -⟩ | ⟨hin, -⟩
  · exact hc
  · omega
  · omega

theorem step_of_memcap_le_pc {s : State} (hrun : s.status = .running) (hbig : (s.memcap : Int) ≤ s.pc.toInt) :
    step s = .next ((s.stop .pcOutOfBounds).raise (.pcOutOfBounds s.pc)) := by
  rw [step_running hrun]
  rcases cycle_cases s with ⟨hneg, -⟩ | ⟨-, hc⟩ | ⟨hin, -⟩
  · omega
  · exact hc
  · omega

theorem status_ne_running_iff (x : RunStatus) :
    x ≠ .running ↔ x = .halted ∨ x = .pcOutOfBounds ∨ x = .negativePcFault := by
  cases x <;> decide

/-- A Running block has a step: a failed fetch ends the run, and every fetched word completes (R48, R97, R111). -/
theorem exists_step_eq_next {s : State} (hrun : s.status = .running) : ∃ t, step s = .next t := by
  rw [step_running hrun]
  rcases cycle_cases s with ⟨-, hc⟩ | ⟨-, hc⟩ | ⟨-, hc⟩
  · exact ⟨_, hc⟩
  · exact ⟨_, hc⟩
  · obtain ⟨t, ht, -⟩ := executeWord_effect (s.memRead s.pc.toInt.toNat) s.advance
    exact ⟨t, hc.trans ht⟩

/-! ### The search for the final state (R106, R107): one equation per kind of state it meets. -/

theorem finalState?_of_not_running {s : State} (h : s.status ≠ .running) (k : Nat) : finalState? k s = some s := by
  cases k with
  | zero => exact if_neg h
  | succ k => exact if_neg h

theorem finalState?_zero_of_running {s : State} (h : s.status = .running) : finalState? 0 s = none := if_pos h

theorem finalState?_succ_of_next {s t : State} (h : step s = .next t) (k : Nat) :
    finalState? (k + 1) s = finalState? k t := by
  obtain ⟨hrun, -⟩ := step_eq_next h
  rw [finalState?, if_pos hrun, h]

theorem observe_of_not_running {s : State} (h : s.status ≠ .running) (k : Nat) : observe k s = [] := by
  cases k with
  | zero => rfl
  | succ k =>
    rw [observe]
    split
    · next t hstep => exact absurd hstep (step_ne_next_of_status_ne h t)
    · rfl
    · rfl

end Sys2Proof.Machine

namespace Sys2Proof.Claims

open Sys2Proof.Machine

/-! ### What an executed word reports (R88). -/

/-- The event output and the status that executing the word `w` in state `s` may leave, each event with its cause. -/
inductive Reports (w : Word) (s : State) : Option Event → RunStatus → Prop where
  | nothing : Reports w s s.event s.status
  | memOutOfBounds {a b : Reg} {off : Int} (hd : decode w = .ok (.lw a b off) ∨ decode w = .ok (.sw a b off))
      (hout : ¬ InBounds s (effectiveAddress s a off)) :
      Reports w s (some (.memOutOfBounds (effectiveAddress s a off))) s.status
  | unknownOpcode (h : 8 ≤ opv w) : Reports w s (some (.unknownOpcode w)) s.status
  | halt (hd : decode w = .ok .halt) : Reports w s (some (.halt s.pc)) .halted

theorem exec_reports {w : Word} {i : Instr} {s t : State} (hd : decode w = .ok i) (h : exec i s = .next t) :
    Reports w s t.event t.status := by
  cases i with
  | add a b d | nand a b d | jalr a b | noop =>
    cases h
    exact .nothing
  | lw a b off =>
    by_cases hin : InBounds s (effectiveAddress s a off)
    · cases (exec_lw_inBounds hin b).symm.trans h
      exact .nothing
    · cases (exec_lw_outOfBounds hin b).symm.trans h
      exact .memOutOfBounds (.inl hd) hin
  | sw a b off =>
    by_cases hin : InBounds s (effectiveAddress s a off)
    · cases (exec_sw_inBounds hin b).symm.trans h
      exact .nothing
    · cases (exec_sw_outOfBounds hin b).symm.trans h
      exact .memOutOfBounds (.inr hd) hin
  | beq a b off =>
    by_cases he : s.reg a = s.reg b
    · cases (exec_beq_eq he off).symm.trans h
      exact .nothing
    · cases (exec_beq_ne he off).symm.trans h
      exact .nothing
  | halt =>
    cases h
    exact .halt hd

theorem executeWord_reports {w : Word} {s t : State} (h : executeWord w s = .next t) :
    Reports w s t.event t.status := by
  by_cases hopv : opv w < 8
  · obtain ⟨i, hd⟩ := (exists_decode_eq_ok_iff w).2 hopv
    exact exec_reports hd (executeWord_of_decode hd s ▸ h)
  · have hle : 8 ≤ opv w := not_lt.1 hopv
    cases (executeWord_of_le_opv hle s).symm.trans h
    exact .unknownOpcode hle

/-! ### The ends of a run within a number of steps (R98, R106), with the equations of `finalState?`. -/

/-- `f` is an end of the run from `s`, reached by at most `k` steps. -/
def EndsWithin (k : Nat) (s f : State) : Prop := f.status ≠ .running ∧ ∃ n, n ≤ k ∧ Reaches n s f

theorem EndsWithin.mono {j k : Nat} {s f : State} (h : EndsWithin k s f) (hkj : k ≤ j) : EndsWithin j s f := by
  obtain ⟨hf, n, hn, hreach⟩ := h
  exact ⟨hf, n, hn.trans hkj, hreach⟩

theorem endsWithin_of_not_running {s : State} (h : s.status ≠ .running) (k : Nat) (f : State) :
    EndsWithin k s f ↔ s = f := by
  constructor
  · rintro ⟨-, n, -, hreach⟩
    cases n with
    | zero => exact hreach.symm
    | succ n =>
      obtain ⟨t, hstep, -⟩ := hreach
      exact absurd hstep (step_ne_next_of_status_ne h t)
  · rintro rfl
    exact ⟨h, 0, Nat.zero_le k, rfl⟩

theorem not_endsWithin_zero_of_running {s : State} (h : s.status = .running) (f : State) : ¬ EndsWithin 0 s f := by
  rintro ⟨hf, n, hn, hreach⟩
  obtain rfl := Nat.le_zero.1 hn
  obtain rfl : f = s := hreach
  exact hf h

theorem endsWithin_succ_of_next {s t : State} (h : step s = .next t) (k : Nat) (f : State) :
    EndsWithin (k + 1) s f ↔ EndsWithin k t f := by
  constructor
  · rintro ⟨hf, n, hn, hreach⟩
    cases n with
    | zero =>
      obtain rfl : f = s := hreach
      exact absurd h (step_ne_next_of_status_ne hf t)
    | succ n =>
      obtain ⟨u, hstep, hreach⟩ := hreach
      cases h.symm.trans hstep
      exact ⟨hf, n, Nat.le_of_succ_le_succ hn, hreach⟩
  · rintro ⟨hf, n, hn, hreach⟩
    exact ⟨hf, n + 1, Nat.succ_le_succ hn, t, h, hreach⟩

/-- The search with `k` fuel finds exactly the ends within `k` steps: both meet the same three kinds of state. -/
theorem finalState?_eq_some_iff (k : Nat) (s f : State) : finalState? k s = some f ↔ EndsWithin k s f := by
  induction k generalizing s with
  | zero =>
    by_cases hrun : s.status = .running
    · simp only [finalState?_zero_of_running hrun, not_endsWithin_zero_of_running hrun, reduceCtorEq]
    · rw [finalState?_of_not_running hrun, endsWithin_of_not_running hrun, Option.some.injEq]
  | succ k ih =>
    by_cases hrun : s.status = .running
    · obtain ⟨t, hstep⟩ := exists_step_eq_next hrun
      rw [finalState?_succ_of_next hstep, endsWithin_succ_of_next hstep, ih]
    · rw [finalState?_of_not_running hrun, endsWithin_of_not_running hrun, Option.some.injEq]

/-! ### The statements. -/

/-- Settles O31: a failed fetch reports its own event, and an executed word, which starts with no event and the status
Running, one of `Reports`. -/
theorem eventsComeWithTheirCauseAndStatus : Obligations.EventsComeWithTheirCauseAndStatus := by
  intro s t h
  obtain ⟨hrun, ⟨hneg, rfl⟩ | ⟨hbig, rfl⟩ | ⟨hin, hexec⟩⟩ := step_cases h
  · exact ⟨rfl, rfl, hneg⟩
  · exact ⟨rfl, rfl, hbig⟩
  · have hreports : Reports (fetched s) s.advance t.event t.status := executeWord_reports hexec
    generalize t.event = e, t.status = x at hreports ⊢
    cases hreports with
    | nothing => exact ⟨hrun, hin⟩
    | memOutOfBounds hd hout => exact ⟨hrun, hin, hout, _, _, _, hd, rfl⟩
    | unknownOpcode hopv => exact ⟨hrun, hin, rfl, mt (highBits_eq_zero_iff _).1 (not_lt.2 hopv)⟩
    | halt hd => exact ⟨rfl, hin, hd, wrap32_toInt_succ s.pc⟩

/-- Settles O23: either access executes as one event on the incremented state, and the increment of an in-bounds pc is
exact. -/
theorem outOfBoundsAccessIsReportedAndSkipped : Obligations.OutOfBoundsAccessIsReportedAndSkipped := by
  intro s a b off hcap hrun hin hd hout
  have hstep : step s = .next (s.advance.raise (.memOutOfBounds (effectiveAddress s a off))) := by
    rw [step_of_pc_inBounds hrun hin]
    obtain hd | hd := hd <;> rw [executeWord_of_decode hd]
    · exact exec_lw_outOfBounds (s := s.advance) hout b
    · exact exec_sw_outOfBounds (s := s.advance) hout b
  obtain ⟨hregs, hmem, hstatus, hconfig⟩ := advance_frame s
  exact ⟨_, hstep, rfl, State.toInt_advance_pc hcap hin, hstatus.trans hrun, hregs, hmem, hconfig⟩

/-- Settles O48: the search finds exactly the ends within its fuel, an end within `k` steps is one within more, and only a
Running state has a step to observe. -/
theorem endOfRunIsFinal : Obligations.EndOfRunIsFinal := by
  refine ⟨finalState?_eq_some_iff, fun k s f h => ?_, fun k s h => finalState?_of_not_running h k,
    fun k s t h => finalState?_succ_of_next h k⟩
  have hends : EndsWithin k s f := (finalState?_eq_some_iff k s f).1 h
  exact ⟨fun j hkj => (finalState?_eq_some_iff j s f).2 (hends.mono hkj), observe_of_not_running hends.1⟩

/-- Settles O24: the failed fetch sets the status and raises its event, and the state it leaves is not Running. -/
theorem fetchPastCapacityEndsTheRun : Obligations.FetchPastCapacityEndsTheRun := by
  intro s hrun hbig
  have hend : ((s.stop .pcOutOfBounds).raise (.pcOutOfBounds s.pc)).status ≠ .running := by simp
  obtain ⟨hpc, hregs, hmem, hconfig⟩ := stop_raise_frame s .pcOutOfBounds (.pcOutOfBounds s.pc)
  exact ⟨_, step_of_memcap_le_pc hrun hbig, rfl, rfl, hpc, hregs, hmem, hconfig, step_ne_next_of_status_ne hend⟩

/-- Settles O25: the failed fetch sets the status NegativePcFault and raises its event; the state it leaves is neither
Running nor Halted. -/
theorem fetchAtNegativePcIsAFault : Obligations.FetchAtNegativePcIsAFault := by
  intro s hrun hneg
  have hend : ((s.stop .negativePcFault).raise (.negativePc s.pc)).status = .negativePcFault := rfl
  obtain ⟨hpc, hregs, hmem, hconfig⟩ := stop_raise_frame s .negativePcFault (.negativePc s.pc)
  exact ⟨_, step_of_pc_neg hrun hneg, hend, rfl, hpc, hregs, hmem, hconfig, step_ne_next_of_status_ne (by simp),
    by simp, by simp⟩

/-- Settles O26: the three terminal statuses are those that are not Running. -/
theorem terminalStatusHasNoStep : Obligations.TerminalStatusHasNoStep :=
  fun s h => step_ne_next_of_status_ne ((status_ne_running_iff s.status).2 h)

/-- Settles O46: the words are listed over the addresses below numLoaded, and the registers over the eight register
numbers. -/
theorem snapshotShowsTheStatedFields : Obligations.SnapshotShowsTheStatedFields := by
  intro s
  refine ⟨rfl, rfl, ?_, fun i hi => ?_, rfl⟩
  · simp [State.snapshot]
  · simp [State.snapshot, hi]

end Sys2Proof.Claims
end

section
/-! PROOFS of the family 70_reset_and_hazards. The one successor of a Running state, and the invariant of a loaded state. -/

namespace Sys2Proof.Machine

/-- A load answers only within the capacity bound (D1), and its state is reset with the placed image (R100, R101, R103). -/
theorem resetAndLoad_eq_some {cap : Nat} {img : List Word} {r : LoadResult} (h : resetAndLoad cap img = some r) :
    (1 ≤ cap ∧ cap ≤ Config.maxMemcap) ∧ r.state =
      { State.reset with memcap := cap, mem := Memory.ofWords 0 (img.take cap), numLoaded := min img.length cap } := by
  by_cases hcap : 1 ≤ cap ∧ cap ≤ Config.maxMemcap
  · cases (resetAndLoad_of_bound hcap img).symm.trans h
    exact ⟨hcap, rfl⟩
  · cases (if_neg hcap).symm.trans h

/-- The image cut to the capacity lists no address at or past it (R101, R102). -/
theorem Memory.boundedBy_ofWords_take (img : List Word) (cap : Nat) :
    (Memory.ofWords 0 (img.take cap)).boundedBy cap = true :=
  Memory.boundedBy_ofWords (img.take cap) 0 cap ((Nat.zero_add _).trans_le (List.length_take_le cap img))

end Sys2Proof.Machine

namespace Sys2Proof.Claims

open Sys2Proof.Machine

/-! ### The statements. -/

/-- Settles O28: a Running state has a step, `step` answers one outcome, and a state that steps is Running. -/
theorem runningStateHasExactlyOneSuccessor : Obligations.RunningStateHasExactlyOneSuccessor := by
  intro s
  constructor
  · intro hrun
    obtain ⟨t, ht⟩ := exists_step_eq_next hrun
    refine ⟨t, ht, fun u hu => ?_⟩
    cases ht.symm.trans hu
    rfl
  · rintro ⟨t, ht, -⟩
    exact (step_eq_next ht).1

/-- Settles O43: the capacity check gives the bound, the placed words are canonical and below the capacity, and the block
is Running with no event. -/
theorem loadedStateHoldsTheInvariant : Obligations.LoadedStateHoldsTheInvariant := by
  intro cap img r h
  obtain ⟨hcap, hstate⟩ := resetAndLoad_eq_some h
  rw [hstate]
  exact ⟨hcap, Memory.wfFrom_ofWords (img.take cap) 0, Memory.boundedBy_ofWords_take img cap,
    Nat.min_le_right img.length cap, State.endOk_of_running_of_no_event rfl rfl⟩

end Sys2Proof.Claims
end

section
/-! PROOFS of the family other. The branch outside the states a run reaches, and the model's way to say that a terminal
status has no step. -/

namespace Sys2Proof.Machine

/-! ### The faults (R98): one equation per terminal status. -/

theorem step_of_halted {s : State} (h : s.status = .halted) : step s = .fault .halted := by
  rw [step, h]

theorem step_of_pcOutOfBounds {s : State} (h : s.status = .pcOutOfBounds) : step s = .fault .pcOutOfBounds := by
  rw [step, h]

theorem step_of_negativePcFault {s : State} (h : s.status = .negativePcFault) : step s = .fault .negativePcFault := by
  rw [step, h]

theorem exists_step_eq_fault {s : State} (h : s.status ≠ .running) : ∃ f, step s = .fault f := by
  obtain h | h | h := (status_ne_running_iff s.status).1 h
  · exact ⟨_, step_of_halted h⟩
  · exact ⟨_, step_of_pcOutOfBounds h⟩
  · exact ⟨_, step_of_negativePcFault h⟩

theorem exists_step_eq_fault_iff (s : State) : (∃ f, step s = .fault f) ↔ s.status ≠ .running := by
  refine ⟨?_, exists_step_eq_fault⟩
  rintro ⟨f, hfault⟩ hrun
  obtain ⟨t, hnext⟩ := exists_step_eq_next hrun
  cases hnext.symm.trans hfault

theorem step_ne_refused (s : State) (r : Refusal) : step s ≠ .refused r := by
  intro hrefused
  by_cases hrun : s.status = .running
  · obtain ⟨t, hnext⟩ := exists_step_eq_next hrun
    cases hnext.symm.trans hrefused
  · obtain ⟨f, hfault⟩ := exists_step_eq_fault hrun
    cases hfault.symm.trans hrefused

end Sys2Proof.Machine

namespace Sys2Proof.Claims

open Sys2Proof.Machine

/-! ### The statements. -/

/-- Settles O17: a taken branch is one pc write, of the target wrapped to 32 bits and so right modulo 2^32; one not taken
does nothing. -/
theorem beqCompletesEverywhere : Obligations.BeqCompletesEverywhere := by
  intro a b off s
  by_cases heq : s.reg a = s.reg b
  · rw [if_pos heq]
    exact ⟨_, exec_beq_eq heq off, dvd_toInt_wrap32_sub (branchTarget s off), setPc_frame s _⟩
  · rw [if_neg heq]
    exact ⟨s, exec_beq_ne heq off, by simp, fun _ => rfl, fun _ => rfl, rfl, rfl, rfl, rfl⟩

/-- Settles O27: each terminal status faults under its own name, and a Running state has a next state instead. -/
theorem stepFaultNamesTheStatus : Obligations.StepFaultNamesTheStatus :=
  fun s => ⟨step_of_halted, step_of_pcOutOfBounds, step_of_negativePcFault, exists_step_eq_fault_iff s, step_ne_refused s⟩

end Sys2Proof.Claims
end
